-- ==== Sys2Proof/Word.lean ====
section
/-! DEFINITION. The two word types of the block: the byte of the pixel buffer, the glyph table and the text of a PRINT,
and the 32-bit item of the command and response streams (rules R50, R54, R55, R80). Bit 0 is the least significant bit
of either (rule R11). -/

namespace Sys2Proof

/-- A byte: one column of one page (rule R27), one character code (R7, `CODE_BITS`), one glyph column (R30). -/
abbrev Byte := BitVec 8

/-- One item of `CMD_IN` or `RSP_OUT` (rules R55, R80, R96). -/
abbrev Word := BitVec 32

end Sys2Proof
end

