-- ==== Sys2Proof/Syntax.lean ====
section
/-! DEFINITION. The commands of the block, one constructor per row of spec/opcode_table.json (rule R82). An operand is a
field of the command word or a payload byte (rule R32). -/

namespace Sys2Proof

/-- A command with its operands. -/
inductive Instr where
  /-- CONSTRUCT, format WH: width and height (rules R84, R130). -/
  | construct (w h : Byte)
  /-- CLEAR, format Z (rules R85, R131). -/
  | clear
  /-- PSET, format XY: column and row (rules R86, R132). -/
  | pset (x y : Byte)
  /-- PCLR, format XY: column and row (rules R86, R133). -/
  | pclr (x y : Byte)
  /-- PRINT, format N with its payload: the `N` character bytes; `N` is the length of the list (rules R87, R88, R167). -/
  | print (text : List Byte)
  /-- RDBYTE, format I: a 13-bit byte index (rules R90, R190). -/
  | rdbyte (index : BitVec 13)
  /-- RDLEN, format Z (rules R91, R191). -/
  | rdlen
deriving DecidableEq, Repr

/-- The pseudo-instruction `PIXEL x, y, on` of rule R99. -/
def Instr.pixel (x y : Byte) (on : Bool) : Instr :=
  if on then .pset x y else .pclr x y

/-- The pseudo-instruction `NEWLINE` of rule R99: `PRINT` of the empty text. -/
def Instr.newline : Instr := .print []

end Sys2Proof
end

