-- ==== Sys2Proof/WellFormed.lean ====
section
/-! DEFINITION. Which commands have an encoding: every operand's type is its field's width, so the one check left is that
the length `N` of a text fits the 8-bit field of a PRINT header (rule R87). -/

namespace Sys2Proof

/-- The command can be encoded (rules R84 to R91; R98 rejects a string longer than 255 bytes). -/
def Instr.wellFormed : Instr → Bool
  | .construct _ _ => true
  | .clear => true
  | .pset _ _ => true
  | .pclr _ _ => true
  | .print text => decide (text.length ≤ 255)
  | .rdbyte _ => true
  | .rdlen => true

/-- The check as a proposition. -/
abbrev Instr.WellFormed (i : Instr) : Prop := i.wellFormed = true

end Sys2Proof
end

