-- ==== Sys2Proof/Decode.lean ====
section
/-! DEFINITION. The decoder of command words, the framing and packing of a PRINT's payload, the encoder, and the opcode
table as data (30_encoding.md, rules R80 to R100). -/

namespace Sys2Proof

/-- `OP = w[31:28]` (rule R80). -/
def opField (w : Word) : BitVec 4 := w.extractLsb' 28 4

/-- `w[15:8]`: `W` of format WH, `X` of format XY (rules R84, R86). -/
def highField (w : Word) : Byte := w.extractLsb' 8 8

/-- `w[7:0]`: `H`, `Y` or `N` (rules R84, R86, R87). -/
def lowField (w : Word) : Byte := w.extractLsb' 0 8

/-- `INDEX = w[12:0]` of format I (rule R90). -/
def indexField (w : Word) : BitVec 13 := w.extractLsb' 0 13

/-- The text length `N` that a PRINT header announces (rule R87). -/
def textLength (hdr : Word) : Nat := (lowField hdr).toNat

/-- How many payload words follow a first word on `CMD_IN`: `ceil(w[7:0] / 4)` when `OP = 0x5`, none otherwise. It
depends only on `OP` and `w[7:0]` (rules R93, R95). -/
def payloadWords (w : Word) : Nat :=
  if opField w = 0x5#4 then (textLength w + 3) / 4 else 0

/-- The four character codes of a payload word, the first in the least significant byte (rules R81, R88). -/
def payloadBytes (w : Word) : List Byte :=
  [w.extractLsb' 0 8, w.extractLsb' 8 8, w.extractLsb' 16 8, w.extractLsb' 24 8]

/-- The text of a PRINT from its header and payload words: the first `N` bytes; the padding bytes at positions `i >= N`
are dropped (rules R88, R89, R160). -/
def payloadText (hdr : Word) (ws : List Word) : List Byte :=
  (ws.flatMap payloadBytes).take (textLength hdr)

/-- Why the decoder gives no command. -/
inductive DecodeError where
  /-- Opcode 0x0 or 0x8 to 0xF: an illegal word (rules R82, R92, R94). -/
  | illegalOpcode (op : BitVec 4)
  /-- A bit that must be 0 is set: an illegal word (rules R83, R92). -/
  | reservedBitSet
  /-- The list of words is empty: there is no first word. -/
  | noWord
  /-- A PRINT header with fewer payload words after it than rule R95 says: the command is not complete. -/
  | payloadMissing
deriving DecidableEq, Repr

/-- `decode` of rule R92 on a command word `w`; the `text` is what a PRINT received as its payload, and no other command
looks at it. An error is the rule's `legal = false`. -/
def decodeCommand (w : Word) (text : List Byte) : Except DecodeError Instr :=
  match (opField w).toNat with
  | 1 => if w.extractLsb' 16 12 = 0#12 then .ok (.construct (highField w) (lowField w)) else .error .reservedBitSet
  | 2 => if w.extractLsb' 0 28 = 0#28 then .ok .clear else .error .reservedBitSet
  | 3 => if w.extractLsb' 16 12 = 0#12 then .ok (.pset (highField w) (lowField w)) else .error .reservedBitSet
  | 4 => if w.extractLsb' 16 12 = 0#12 then .ok (.pclr (highField w) (lowField w)) else .error .reservedBitSet
  | 5 => if w.extractLsb' 8 20 = 0#20 then .ok (.print text) else .error .reservedBitSet
  | 6 => if w.extractLsb' 13 15 = 0#15 then .ok (.rdbyte (indexField w)) else .error .reservedBitSet
  | 7 => if w.extractLsb' 0 28 = 0#28 then .ok .rdlen else .error .reservedBitSet
  | _ => .error (.illegalOpcode (opField w))

/-- The decoder of a word list: the first command and the words after it. It takes the payload words that the first word
announces, whatever they contain (rules R93, R95, R237), and is total. -/
def decode : List Word → Except DecodeError (Instr × List Word)
  | [] => .error .noWord
  | w :: ws =>
    if ws.length < payloadWords w then .error .payloadMissing
    else
      match decodeCommand w (payloadText w (ws.take (payloadWords w))) with
      | .ok i => .ok (i, ws.drop (payloadWords w))
      | .error e => .error e

/-! ## The encoder -/

/-- Four characters to a payload word, the first in the least significant byte, padding bytes 0 (rules R88, R98). -/
def packPayload : List Byte → List Word
  | [] => []
  | [a] => [0#24 ++ a]
  | [a, b] => [0#16 ++ b ++ a]
  | [a, b, c] => [0#8 ++ c ++ b ++ a]
  | a :: b :: c :: d :: rest => (d ++ c ++ b ++ a) :: packPayload rest

/-- The first word of a command, from the bit patterns of rules R84 to R91. -/
def header : Instr → Word
  | .construct w h => 0b0001#4 ++ 0#12 ++ w ++ h
  | .clear => 0b0010#4 ++ 0#28
  | .pset x y => 0b0011#4 ++ 0#12 ++ x ++ y
  | .pclr x y => 0b0100#4 ++ 0#12 ++ x ++ y
  | .print text => 0b0101#4 ++ 0#20 ++ BitVec.ofNat 8 text.length
  | .rdbyte index => 0b0110#4 ++ 0#12 ++ 0#3 ++ index
  | .rdlen => 0b0111#4 ++ 0#28

/-- The words after the first: a PRINT's payload, none for any other command (rules R87, R95). -/
def payload : Instr → List Word
  | .construct _ _ => []
  | .clear => []
  | .pset _ _ => []
  | .pclr _ _ => []
  | .print text => packPayload text
  | .rdbyte _ => []
  | .rdlen => []

/-- The words of a command on `CMD_IN` (rules R95, R98). -/
def encode (i : Instr) : List Word := header i :: payload i

/-! ## The opcode table as data -/

/-- One row of spec/opcode_table.json: a word belongs to the row when its bits under `mask` are `value`. -/
structure OpcodeRow where
  mnemonic : String
  mask     : Word
  value    : Word
deriving DecidableEq, Repr

/-- spec/opcode_table.json, row by row. -/
def opcodeTable : List OpcodeRow :=
  [ { mnemonic := "CONSTRUCT", mask := 0xFFFF0000, value := 0x10000000 },
    { mnemonic := "CLEAR", mask := 0xFFFFFFFF, value := 0x20000000 },
    { mnemonic := "PSET", mask := 0xFFFF0000, value := 0x30000000 },
    { mnemonic := "PCLR", mask := 0xFFFF0000, value := 0x40000000 },
    { mnemonic := "PRINT", mask := 0xFFFFFF00, value := 0x50000000 },
    { mnemonic := "RDBYTE", mask := 0xFFFFE000, value := 0x60000000 },
    { mnemonic := "RDLEN", mask := 0xFFFFFFFF, value := 0x70000000 } ]

/-- The word belongs to the row. -/
def OpcodeRow.matches (r : OpcodeRow) (w : Word) : Bool := decide (w &&& r.mask = r.value)

/-- The word is a legal command word by the opcode table (rules R82, R83, R93). -/
def legalWord (w : Word) : Bool := opcodeTable.any fun r => r.matches w

/-! ## The host's numbering of an instruction's bits -/

/-- The longest command, in words (rule R95). -/
def maxCommandWords : Nat := 65

/-- The 32-bit words of the number `w`, bits from `nbits` up taken as 0: word `j` is bits `32 j + 31` to `32 j`, the
first word the least significant, `count` words in all. -/
def tableWords (count nbits w : Nat) : List Word :=
  (List.range count).map fun j => BitVec.ofNat 32 ((w % 2 ^ nbits) >>> (32 * j))

/-- What the decoder reads from the instruction whose bits are `w`, numbered as spec/opcode_table.json numbers them; the
payload words it gives no bits are words of zeros. -/
def decodeTableWord (nbits w : Nat) : Option Instr :=
  match decode (tableWords maxCommandWords nbits w) with
  | .ok (i, _) => some i
  | .error _ => none

end Sys2Proof
end

