-- ==== Sys2Proof/Config.lean ====
section
/-! DEFINITION. What is fixed for the machine while it runs: the fixed parameters of rule R7, and the four inputs of the
`CONFIG` interface (rules R9, R30, R36): the glyph table and the three policies. The value the specification uses when a
model is given no other is `Config.standard`; the bytes of its font, which the specification leaves OPEN, are the free
value `Config.fontByte`. -/

namespace Sys2Proof

/-- `PAGE_ROWS` of rule R7: pixel rows per page. -/
abbrev pageRows : Nat := 8

/-- `MAX_DIM` of rule R7: the largest legal width and height. -/
abbrev maxDim : Nat := 255

/-- `GLYPH_WIDTH` of rule R7: columns per glyph. -/
abbrev glyphWidth : Nat := 5

/-- `GLYPH_ROWS` of rule R7: rows per glyph, one page. -/
abbrev glyphRows : Nat := 8

/-- `MAX_CHARS` of rule R7: the most characters one PRINT renders. -/
abbrev maxChars : Nat := 25

/-- The five columns of one glyph, counted from the left; bit `b` of a column is glyph row `b` from the top (rule R30). -/
structure Glyph where
  c0 : Byte
  c1 : Byte
  c2 : Byte
  c3 : Byte
  c4 : Byte
deriving DecidableEq, Repr

/-- The glyph table input of rule R30 as plain data: the code of each defined glyph with its columns. A code that is not
listed is undefined; the first entry of a code is the one that counts (log entry 6). -/
abbrev GlyphTable := List (Byte × Glyph)

/-- `P_UNDEF_GLYPH` of rule R9 (decision D14). -/
inductive UndefGlyph where
  | fault
  | blank
deriving DecidableEq, Repr

/-- `P_PRINT_GEOMETRY` of rule R9 (decision D18). -/
inductive PrintGeometry where
  | general
  | strict
deriving DecidableEq, Repr

/-- `P_NARROW_LINE` of rule R9 (decision D19). -/
inductive NarrowLine where
  | clip
  | fault
deriving DecidableEq, Repr

/-- The `CONFIG` interface of rule R36: static inputs no command and no reset changes (rules R30, R231). -/
structure Config where
  glyphTable    : GlyphTable
  undefGlyph    : UndefGlyph
  printGeometry : PrintGeometry
  narrowLine    : NarrowLine
deriving DecidableEq, Repr

/-- FREE VALUE (log entry 7): byte `k` of the glyph of code `c` in the repository's font, which the specification leaves
OPEN (rule R9, decision D15). Nothing can be proved of its value. -/
opaque Config.fontByte : Byte → Fin 5 → Byte

/-- The glyph of code `c` in the font whose bytes are open. -/
def Config.openGlyph (c : Byte) : Glyph :=
  { c0 := Config.fontByte c 0, c1 := Config.fontByte c 1, c2 := Config.fontByte c 2, c3 := Config.fontByte c 3,
    c4 := Config.fontByte c 4 }

/-- The specification's choice of defined codes, 0x20 to 0x7E (rule R9, decision D15; log entry 14), each with its open
glyph. -/
def Config.openGlyphTable : GlyphTable :=
  (List.range' 0x20 95).map fun c => (BitVec.ofNat 8 c, Config.openGlyph (BitVec.ofNat 8 c))

/-- The "spec's choice" column of rule R9. -/
def Config.standard : Config :=
  { glyphTable := Config.openGlyphTable, undefGlyph := .fault, printGeometry := .general, narrowLine := .clip }

end Sys2Proof
end

