-- ==== Sys2Proof/Machine/State.lean ====
section
/-! DEFINITION. The state of the block (10_state.md, rules R20 to R39): its registers, the pixel buffer and the parser,
with the streams and the configuration of its four interfaces (rule R36); the reasons a step stops; and the state after
reset (rule R39). -/

namespace Sys2Proof.Machine

/-- The pixel buffer as cells of byte index and byte, indexes strictly rising, no cell holding 0 (the value every byte has
after CONSTRUCT, rule R130, so the value of an index that is not listed). Its addresses are `[0, BUF_LEN)` (rules R26,
R50, R51); its length is the register `BUF_LEN` (rule R25), not the length of this list (log entry 1). -/
abbrev Memory := List Host.Cell

/-- `PARSER` of rule R31. -/
inductive Parser where
  /-- The next word of `CMD_IN` is a command word. -/
  | idle
  /-- A PRINT header `hdr` was taken; `remaining` payload words are still to come; `text` is what came so far. -/
  | payload (hdr : Word) (remaining : Nat) (text : List Byte)
deriving DecidableEq, Repr

/-- What the outside sends: a word on `CMD_IN`, or the event of the `RESET` interface, which may stand between any two
words (rules R36, R230). -/
inductive Event where
  | word (w : Word)
  | reset
deriving DecidableEq, Repr

/-- The state. -/
structure State where
  /-- `CONSTRUCTED`, 1 bit (rule R21). -/
  constructed : Bool
  /-- `WIDTH`, 8 bits (rule R22). -/
  width : BitVec 8
  /-- `HEIGHT`, 8 bits (rule R23). -/
  height : BitVec 8
  /-- `PAGE_COUNT`, 6 bits (rule R24). -/
  pageCount : BitVec 6
  /-- `BUF_LEN`, 13 bits (rule R25). -/
  bufLen : BitVec 13
  /-- `PIXELS` (rules R26 to R29). -/
  pixels : Memory
  /-- `PARSER` (rule R31). -/
  parser : Parser
  /-- The `CONFIG` interface, a static input (rules R30, R36); the model's own field (log entry 5). -/
  config : Config
  /-- What `CMD_IN` and `RESET` still have to deliver, the next first; the model's own field (log entry 2). -/
  cmdIn : List Event
  /-- What `RSP_OUT` has carried so far, the oldest first: the observation of the run (rule R37); the model's own field
  (log entry 3). -/
  rspOut : List Word
deriving DecidableEq, Repr

/-- Why the machine has no step. -/
inductive Fault where
  /-- Raised by `step` alone: nothing is left on the streams and `PARSER` is `Idle`. The run has ended (rule R240); no
  error of the block. Safe: the machine waits for a word, and has no step (rule R12, log entry 4). -/
  | streamEnded
  /-- Raised by `step` alone: nothing is left on the streams inside a PRINT. The block waits, and the run is not final
  (rule R240, U11 of 93_implementation_defined.md). Safe (log entry 4). -/
  | waitingForPayload
  /-- Raised by PSET, PCLR and PRINT, only in a state whose registers contradict rules R22 to R25, which no run reaches:
  the byte to write is outside `[0, BUF_LEN)`, where rule R51 says no command writes. Safe (log entry 8). -/
  | pixelAddressOutsideBuffer
deriving DecidableEq, Repr

/-- Why a command has no meaning here. -/
inductive Refusal where
  /-- The arm of a command that has no meaning yet. Raised by no arm of this model. Safe. -/
  | notModelled (mnemonic : String)
deriving DecidableEq, Repr

/-- The state after reset (rules R39, R233), with the configuration of rule R9's "spec's choice" column (log
entry 5) and both streams empty (log entry 9). -/
def State.reset : State :=
  { constructed := false
    width := 0
    height := 0
    pageCount := 0
    bufLen := 0
    pixels := []
    parser := .idle
    config := Config.standard
    cmdIn := []
    rspOut := [] }

end Sys2Proof.Machine
end

