-- ==== Sys2Proof/Machine/Flags.lean ====
section
/-! DEFINITION. The block has no status flags and no condition codes (rule R34): what a command says of its outcome is its
response word. This file is that word: the status codes and the layout (rules R96, R97). -/

namespace Sys2Proof.Machine

/-- The errors a command can raise (rules R97, R201 to R206). -/
inductive CommandError where
  | invalidDimensions
  | outOfRange
  | undefinedGlyph
  | notConstructed
  | illegalCommand
  | geometryUnsupported
deriving DecidableEq, Repr

/-- `STATUS` of a command that took effect (rule R97). -/
def statusOk : BitVec 4 := 0x0

/-- `code(Error)` of rule R12: the status codes of rule R97. -/
def CommandError.code : CommandError → BitVec 4
  | .invalidDimensions => 0x1
  | .outOfRange => 0x2
  | .undefinedGlyph => 0x3
  | .notConstructed => 0x4
  | .illegalCommand => 0x5
  | .geometryUnsupported => 0x6

/-- The response word of rule R96: `STATUS` in `[31:28]`, zero in `[27:16]`, `DATA` in `[15:0]`. -/
def responseWord (status : BitVec 4) (data : BitVec 16) : Word := status ++ 0#12 ++ data

/-- `STATUS` of a response word (rule R96). -/
def statusOf (r : Word) : BitVec 4 := r.extractLsb' 28 4

/-- `DATA` of a response word (rule R96). -/
def dataOf (r : Word) : BitVec 16 := r.extractLsb' 0 16

end Sys2Proof.Machine
end

