-- ==== Sys2Proof/Machine/Operands.lean ====
section
/-! DEFINITION. How an operand becomes a place in the buffer: the coordinate translator (rules R120 to R126), the target
page of a PRINT (R161), how many characters it renders (R162) and what a glyph's columns are (R163). Arithmetic is exact on
naturals (rule R10). -/

namespace Sys2Proof.Machine

/-- `page(y) = y / 8` (rule R120). -/
abbrev pageOf (y : Byte) : Nat := y.toNat / pageRows

/-- `bit(y) = 1 << (y % 8)` (rule R121). -/
def bitOf (y : Byte) : Byte := 1#8 <<< (y.toNat % pageRows)

/-- `index(x, y) = x + page(y) * WIDTH` (rule R122). -/
def State.indexOf (s : State) (x y : Byte) : Nat := x.toNat + pageOf y * s.width.toNat

/-- `InRange(x, y) = (x < WIDTH) and (y < HEIGHT)` (rule R123). -/
def State.inRange (s : State) (x y : Byte) : Bool :=
  decide (x.toNat < s.width.toNat) && decide (y.toNat < s.height.toNat)

/-- `pageCount(H)` as rule R125 computes it. -/
def pageCountOf (h : Nat) : Nat :=
  let pc := h / pageRows
  if pc = 0 ∨ h % pageRows ≠ 0 then pc + 1 else pc

/-- `len(W, H) = W * pageCount(H)` (rule R126). -/
def bufferLength (w h : Nat) : Nat := w * pageCountOf h

/-- The first byte of the target page of a PRINT, `BUF_LEN - WIDTH` (rules R161, R166). -/
abbrev State.bottomBase (s : State) : Nat := s.bufLen.toNat - s.width.toNat

/-- `renderCount(t) = min(N, 25, z)`, `z` the position of the first byte 0x00, or `N` if there is none (rule R162). -/
def renderCount (t : List Byte) : Nat :=
  min (min t.length maxChars) (t.findIdx fun c => c == 0#8)

/-- The glyph of a code, `none` when the code has no glyph (rule R30). -/
def glyphOf (table : GlyphTable) (c : Byte) : Option Glyph := table.lookup c

/-- `Defined(c)` (rules R12, R30). -/
def isDefined (cfg : Config) (c : Byte) : Bool := (glyphOf cfg.glyphTable c).isSome

/-- Column `j` of a glyph, `0 <= j < 5` (rule R30). -/
def glyphColumn (g : Glyph) : Nat → Byte
  | 0 => g.c0
  | 1 => g.c1
  | 2 => g.c2
  | 3 => g.c3
  | _ => g.c4

/-- `gbyte(c, j)` of rule R163: the column of a defined code; 0x00 for a code with no glyph, which is rendered only when
`P_UNDEF_GLYPH = blank` (under `fault` the rule gives no byte, log entry 6). -/
def gbyte (cfg : Config) (c : Byte) (j : Nat) : Byte :=
  match glyphOf cfg.glyphTable c with
  | some g => glyphColumn g j
  | none => 0#8

end Sys2Proof.Machine
end

