-- ==== Sys2Proof/Machine/Ops.lean ====
section
/-! DEFINITION. The named operations of the meanings: reading and writing the pixel buffer (`MemRead`, `MemWrite` of rule
R12 and the whole-range writes of rules R131, R164, R165), answering a command (`respond`), raising an error (`raise`, rules
R12, R200, R207), and the reset event (rule R230). The block has no trap entry and no return from one (rule R212): raising
an error is its one exception mechanism. -/

namespace Sys2Proof.Machine

/-- What one step answers. -/
abbrev Result := Host.Outcome State Fault Refusal

/-! ## The pixel buffer -/

/-- What an index that is not listed holds: the value CONSTRUCT gives every byte (rules R61, R130). -/
def Memory.unlisted : Byte := 0#8

/-- The canonical form: indexes strictly rising, no cell holding what an unlisted index holds. -/
abbrev Memory.wf (m : Memory) : Prop :=
  m.Pairwise (fun a b => a.1 < b.1) ∧ ∀ c ∈ m, c.2 ≠ Memory.unlisted

/-- `MemRead(a, 1)` (rule R12). -/
def Memory.read : Memory → Nat → Byte
  | [], _ => Memory.unlisted
  | (k, b) :: m, a => if k = a then b else Memory.read m a

/-- The cell for byte `v` at index `a`: none when `v` is what an unlisted index holds. -/
def Memory.cell (a : Nat) (v : Byte) : Memory :=
  if v = Memory.unlisted then [] else [(a, v)]

/-- `MemWrite(a, 1, v)` (rule R12). -/
def Memory.write : Memory → Nat → Byte → Memory
  | [], a, v => Memory.cell a v
  | (k, b) :: m, a, v =>
    if a < k then Memory.cell a v ++ (k, b) :: m
    else if a = k then Memory.cell a v ++ m
    else (k, b) :: Memory.write m a v

/-- `MemWrite(i, 1, f i)` for every `i` in `[lo, lo + n)`, where `f` reads only what stood before the first of these
writes. -/
def Memory.fill (m : Memory) (lo n : Nat) (f : Nat → Byte) : Memory :=
  m.filter (fun c => decide (c.1 < lo)) ++ (List.range' lo n).flatMap (fun i => Memory.cell i (f i)) ++
    m.filter (fun c => decide (lo + n ≤ c.1))

/-! ## Responses and errors -/

/-- `respond(status, data)` of rule R12: one response word, appended to `RSP_OUT`. -/
def State.respond (s : State) (status : BitVec 4) (data : BitVec 16) : State :=
  { s with rspOut := s.rspOut ++ [responseWord status data] }

/-- The command took effect: `respond(OK, data)`. -/
def State.complete (s : State) (data : BitVec 16) : Result := .next (s.respond statusOk data)

/-- `raise <Error>` of rule R12: the command ends with `respond(code(Error), 0)` and leaves no other trace. The checks of
every command stand before its first write (rule R207, decision D8), so there is nothing to undo. -/
def State.raise (s : State) (e : CommandError) : Result := .next (s.respond e.code 0)

/-- The check of every command but CONSTRUCT: `NotConstructed` while `CONSTRUCTED = 0` (rules R21, R204, R208). -/
def State.whenConstructed (s : State) (run : Result) : Result :=
  if s.constructed then run else s.raise .notConstructed

/-! ## Changes of the buffer -/

/-- The buffer with byte `i` changed by `f`, and the answer OK. A byte outside `[0, BUF_LEN)` does not exist (rule R51). -/
def State.modifyByte (s : State) (i : Nat) (f : Byte → Byte) : Result :=
  if i < s.bufLen.toNat then
    State.complete { s with pixels := s.pixels.write i (f (s.pixels.read i)) } 0
  else .fault .pixelAddressOutsideBuffer

/-- The loop of CLEAR: every byte of `[0, BUF_LEN)` to 0 (rule R131). -/
def State.clearPixels (s : State) : State :=
  { s with pixels := s.pixels.fill 0 s.bufLen.toNat fun _ => 0#8 }

/-- `scroll` of rule R164: `PIXELS[i] <- old[i + WIDTH]` for every `i` in `[0, BUF_LEN - WIDTH)`. -/
def State.scroll (s : State) : State :=
  { s with pixels := s.pixels.fill 0 s.bottomBase fun i => s.pixels.read (i + s.width.toNat) }

/-- `clearBottom` of rule R165: the last `WIDTH` bytes to 0. -/
def State.clearBottom (s : State) : State :=
  { s with pixels := s.pixels.fill s.bottomBase s.width.toNat fun _ => 0#8 }

/-- The body of `blit`'s inner loop (rule R166): column `col` of the target page, clipped at `WIDTH`. -/
def State.blitColumn (s : State) (col : Nat) (v : Byte) : State :=
  if col < s.width.toNat then { s with pixels := s.pixels.write (s.bottomBase + col) v } else s

/-- One character of `blit` (rule R166): its five columns at offset `5 * i`, left to right. -/
def State.blitChar (s : State) (i : Nat) (c : Byte) : State :=
  (List.range glyphWidth).foldl (fun u j => u.blitColumn (glyphWidth * i + j) (gbyte u.config c j)) s

/-- `blit(t, k)` of rule R166, the first `k` characters of `t` left to right; `i` is the position of the first of
them. -/
def State.blit (s : State) (i : Nat) : List Byte → State
  | [] => s
  | c :: t => (s.blitChar i c).blit (i + 1) t

/-! ## Reset -/

/-- The reset event (rules R230 to R232): every register to its value of rule R39; the configuration stays, and so do the
responses already given and the words still to come. -/
def State.takeReset (s : State) : State :=
  { State.reset with config := s.config, cmdIn := s.cmdIn, rspOut := s.rspOut }

end Sys2Proof.Machine
end

