-- ==== Sys2Proof/Machine/Buffer.lean ====
section
/-! DEFINITION. The meanings of the Bitmap Buffer's commands: CONSTRUCT, CLEAR, PSET, PCLR (40_bitmap_buffer.md). Each is
the pseudocode of its rule after the `legal(w)` check, which `execute` of Machine/Framing.lean makes. -/

namespace Sys2Proof.Machine

/-- CONSTRUCT (rule R130). -/
def execConstruct (w h : Byte) (s : State) : Result :=
  if w = 0#8 ∨ h = 0#8 then s.raise .invalidDimensions
  else
    State.complete
      { s with
        constructed := true
        width := w
        height := h
        pageCount := BitVec.ofNat 6 (pageCountOf h.toNat)
        bufLen := BitVec.ofNat 13 (bufferLength w.toNat h.toNat)
        pixels := [] }
      0

/-- CLEAR (rule R131). -/
def execClear (s : State) : Result :=
  s.whenConstructed (s.clearPixels.complete 0)

/-- PSET (rule R132). -/
def execPset (x y : Byte) (s : State) : Result :=
  s.whenConstructed <|
    if s.inRange x y then s.modifyByte (s.indexOf x y) (fun b => b ||| bitOf y) else s.raise .outOfRange

/-- PCLR (rules R133, R135): the mask is the bitwise complement of the pixel's bit. -/
def execPclr (x y : Byte) (s : State) : Result :=
  s.whenConstructed <|
    if s.inRange x y then s.modifyByte (s.indexOf x y) (fun b => b &&& ~~~bitOf y) else s.raise .outOfRange

end Sys2Proof.Machine
end

