-- ==== Sys2Proof/Machine/Export.lean ====
section
/-! DEFINITION. The meanings of the export commands RDBYTE and RDLEN, and the export view of a state (42_buffer_export.md). -/

namespace Sys2Proof.Machine

/-- RDBYTE (rule R190). -/
def execRdbyte (index : BitVec 13) (s : State) : Result :=
  s.whenConstructed <|
    if s.bufLen.toNat ≤ index.toNat then s.raise .outOfRange
    else s.complete ((s.pixels.read index.toNat).setWidth 16)

/-- RDLEN (rule R191). -/
def execRdlen (s : State) : Result :=
  s.whenConstructed (s.complete (s.bufLen.setWidth 16))

/-- The export view of rules R53 and R192: `PIXELS[0]` to `PIXELS[BUF_LEN - 1]`, in ascending order. -/
def State.exportView (s : State) : List Byte :=
  (List.range s.bufLen.toNat).map s.pixels.read

/-- The pixel at column `x`, row `r` of the layout of rules R26 and R27, padding rows included: bit `r % 8` of byte
`x + (r / 8) * WIDTH`. -/
def State.pixelAt (s : State) (x r : Nat) : Bool :=
  (s.pixels.read (x + r / pageRows * s.width.toNat)).getLsbD (r % pageRows)

end Sys2Proof.Machine
end

