-- ==== Sys2Proof/Machine/Text.lean ====
section
/-! DEFINITION. The meaning of PRINT (41_text_renderer.md). The framing of its words is in Machine/Framing.lean. -/

namespace Sys2Proof.Machine

/-- The geometry that the strict policy refuses: `HEIGHT % 8 != 0` or `PAGE_COUNT < 8` (rule R206). -/
def State.irregularGeometry (s : State) : Bool :=
  decide (s.height.toNat % pageRows ≠ 0) || decide (s.pageCount.toNat < 8)

/-- Some rendered character has no glyph (rules R167, R203). -/
def State.undefinedIn (s : State) (rendered : List Byte) : Bool :=
  rendered.any fun c => !isDefined s.config c

/-- The effect of a PRINT whose checks passed: scroll, clear the bottom page, blit (rule R167). -/
def State.printLine (s : State) (rendered : List Byte) : State :=
  s.scroll.clearBottom.blit 0 rendered

/-- PRINT (rule R167), the checks in its order. A `WIDTH` above `BUF_LEN` contradicts rule R25: the bottom page would
begin before byte 0. -/
def execPrint (text : List Byte) (s : State) : Result :=
  s.whenConstructed <|
    let rendered := text.take (renderCount text)
    if s.config.printGeometry = .strict ∧ s.irregularGeometry = true then s.raise .geometryUnsupported
    else if s.config.undefGlyph = .fault ∧ s.undefinedIn rendered = true then s.raise .undefinedGlyph
    else if s.config.narrowLine = .fault ∧ s.width.toNat < glyphWidth * renderCount text then s.raise .outOfRange
    else if s.bufLen.toNat < s.width.toNat then .fault .pixelAddressOutsideBuffer
    else (s.printLine rendered).complete 0

end Sys2Proof.Machine
end

