-- ==== Sys2Proof/Machine/Dispatch.lean ====
section
/-! DEFINITION. One arm per command (rule R82). -/

namespace Sys2Proof.Machine

def exec (i : Instr) (s : State) : Host.Outcome State Fault Refusal :=
  match i with
  | .construct w h => Sys2Proof.Machine.execConstruct w h s
  | .clear => Sys2Proof.Machine.execClear s
  | .pset x y => Sys2Proof.Machine.execPset x y s
  | .pclr x y => Sys2Proof.Machine.execPclr x y s
  | .print text => Sys2Proof.Machine.execPrint text s
  | .rdbyte index => Sys2Proof.Machine.execRdbyte index s
  | .rdlen => Sys2Proof.Machine.execRdlen s

end Sys2Proof.Machine
end

