-- ==== Sys2Proof/Machine/Framing.lean ====
section
/-! DEFINITION. How the words of `CMD_IN` become commands (rule R160): the parser, the `legal(w)` check that every
command's pseudocode begins with, and where a word is placed so that it is the next command. -/

namespace Sys2Proof.Machine

/-- Execute the command whose first word is `hdr` and whose received text is `text`: an illegal word raises
`IllegalCommand` before anything else is looked at (rules R92, R93, R205, R208). -/
def execute (hdr : Word) (text : List Byte) (s : State) : Result :=
  match decodeCommand hdr text with
  | .ok i => exec i s
  | .error _ => s.raise .illegalCommand

/-- One word taken from `CMD_IN`, as rule R160 writes it. A payload with no word to come is a state that rule never reaches
(log entry 10). -/
def receiveWord (w : Word) (s : State) : Result :=
  match s.parser with
  | .idle =>
    if opField w = 0x5#4 then
      if textLength w = 0 then execute w [] s
      else .next { s with parser := .payload w (payloadWords w) [] }
    else execute w [] s
  | .payload hdr r text =>
    let text2 := text ++ payloadBytes w
    if r = 1 then execute hdr (text2.take (textLength hdr)) { s with parser := .idle }
    else .next { s with parser := .payload hdr (r - 1) text2 }

/-- One event taken from the interfaces: a word, or a reset. -/
def receive (e : Event) (s : State) : Result :=
  match e with
  | .word w => receiveWord w s
  | .reset => .next s.takeReset

/-- The streams are empty: the block waits, and has no step (rules R12, R240). -/
def waitingFault (s : State) : Fault :=
  match s.parser with
  | .idle => .streamEnded
  | .payload _ _ _ => .waitingForPayload

/-- The state in which the very next step executes the command with first word `w` and payload words `ps`: for a one-word
command the word is next on `CMD_IN`; for a PRINT with payload the parser has taken all its words but the last, which is
next on `CMD_IN` (log entry 9). -/
def State.withCommand (s : State) (w : Word) (ps : List Word) : State :=
  match ps.getLast? with
  | none => { s with parser := .idle, cmdIn := .word w :: s.cmdIn }
  | some last =>
    { s with parser := .payload w 1 (ps.dropLast.flatMap payloadBytes), cmdIn := .word last :: s.cmdIn }

/-- `withCommand` for the words of the host's numbering (Decode.lean, `tableWords`). -/
def State.withTableWord (s : State) (nbits w : Nat) : State :=
  match tableWords maxCommandWords nbits w with
  | [] => s
  | hdr :: ps => s.withCommand hdr (ps.take (payloadWords hdr))

end Sys2Proof.Machine
end

