-- ==== Sys2Proof/Machine/Step.lean ====
section
/-! DEFINITION. One step: the next event of the interfaces is taken, a word or a reset (rules R57, R160, R230). With
nothing left to take there is no step (rules R12, R240). Each word is one step, and a command runs whole in the step that
takes its last word (log entry 12). -/

namespace Sys2Proof.Machine

/-- One step of the block. -/
def step (s : State) : Host.Outcome State Fault Refusal :=
  match s.cmdIn with
  | [] => .fault (waitingFault s)
  | e :: rest => receive e { s with cmdIn := rest }

/-- `n` steps, stopping at the first that gives no next state (the host's `Host.Core.run`, on this machine). -/
def run : Nat → State → Host.Outcome State Fault Refusal
  | 0, s => .next s
  | n + 1, s =>
    match step s with
    | .next t => run n t
    | .fault f => .fault f
    | .refused r => .refused r

/-- The state whose very next step fetches and runs the instruction with bits `w` (log entry 9). -/
def State.withFetchWord (s : State) (nbits w : Nat) : State := s.withTableWord nbits w

end Sys2Proof.Machine
end

