-- ==== Sys2Proof/Machine/Assembler.lean ====
section
/-! DEFINITION. The assembly syntax of rules R98 and R99: what each form encodes as and which operands are rejected, over
parsed lines (`AsmLine`), and the text of a line as characters, parsed to that form. What rule R98 leaves open of the text
(blanks, the case of hexadecimal letters, an empty byte list, a `;` inside a string, other escapes) is log entry 11. -/

namespace Sys2Proof.Machine

/-- One line of assembly, its operands not yet checked. -/
inductive AsmLine where
  | blank
  | construct (w h : Nat)
  | clear
  | pset (x y : Nat)
  | pclr (x y : Nat)
  | print (bytes : List Nat)
  | rdbyte (index : Nat)
  | rdlen
  | word (v : Nat)
  | pixel (x y on : Nat)
  | newline
deriving DecidableEq, Repr

/-- An operand of the range `[0, 255]`, rejected outside it (rule R98). -/
def byteOperand (n : Nat) : Option Byte := if n ≤ 255 then some (BitVec.ofNat 8 n) else none

/-- The command a line stands for (rules R98, R99); none for a rejected operand, a blank line or a raw word. -/
def AsmLine.instr : AsmLine → Option Instr
  | .blank => none
  | .construct w h => do some (.construct (← byteOperand w) (← byteOperand h))
  | .clear => some .clear
  | .pset x y => do some (.pset (← byteOperand x) (← byteOperand y))
  | .pclr x y => do some (.pclr (← byteOperand x) (← byteOperand y))
  | .print bytes => do
    let text ← bytes.mapM byteOperand
    if text.length ≤ 255 then some (.print text) else none
  | .rdbyte index => if index ≤ 8191 then some (.rdbyte (BitVec.ofNat 13 index)) else none
  | .rdlen => some .rdlen
  | .word _ => none
  | .pixel x y on => do
    let x ← byteOperand x
    let y ← byteOperand y
    if on ≤ 1 then some (Instr.pixel x y (decide (on = 1))) else none
  | .newline => some Instr.newline

/-- The words a line encodes as; none when it is rejected (rule R98). -/
def AsmLine.words (l : AsmLine) : Option (List Word) :=
  match l with
  | .blank => some []
  | .word v => if v < 2 ^ 32 then some [BitVec.ofNat 32 v] else none
  | l => l.instr.map encode

/-! ## The text of a line -/

/-- The tokens of a line. -/
inductive Token where
  | name (cs : List Char)
  | number (n : Nat)
  | text (bytes : List Byte)
  | comma
  | opening
  | closing
deriving DecidableEq, Repr

/-- Where in a line the reader stands. -/
inductive LexMode where
  | gap
  | atom (acc : List Char)
  | text (acc : List Byte)
  | escape (acc : List Byte)
  | hexHigh (acc : List Byte)
  | hexLow (acc : List Byte) (high : Nat)
  | comment

/-- The value of a decimal or hexadecimal digit, its letters in either case (log entry 11). -/
def digitValue (c : Char) : Option Nat :=
  let n := c.toNat
  if 0x30 ≤ n ∧ n ≤ 0x39 then some (n - 0x30)
  else if 0x41 ≤ n ∧ n ≤ 0x46 then some (n - 0x37)
  else if 0x61 ≤ n ∧ n ≤ 0x66 then some (n - 0x57)
  else none

/-- A number from its digits in the given base, continuing from `acc`; none for a character that is no digit. -/
def numeral (base acc : Nat) : List Char → Option Nat
  | [] => some acc
  | c :: cs =>
    match digitValue c with
    | some d => if d < base then numeral base (base * acc + d) cs else none
    | none => none

/-- A decimal or `0x` hexadecimal number, or a mnemonic. -/
def atomToken : List Char → Option Token
  | '0' :: 'x' :: c :: cs => (numeral 16 0 (c :: cs)).map Token.number
  | c :: cs =>
    if 0x30 ≤ c.toNat ∧ c.toNat ≤ 0x39 then (numeral 10 0 (c :: cs)).map Token.number else some (.name (c :: cs))
  | [] => none

/-- The characters of numbers and mnemonics: letters, digits and the point of `.word`. -/
def atomChar (c : Char) : Bool := c.isAlphanum || c == '.'

/-- One character outside numbers, mnemonics, strings and comments: the tokens it makes and what follows it. -/
def gapStep (c : Char) : Option (List Token × LexMode) :=
  if c == ' ' || c == '\t' then some ([], .gap)
  else if c == ';' then some ([], .comment)
  else if c == '"' then some ([], .text [])
  else if c == ',' then some ([.comma], .gap)
  else if c == '[' then some ([.opening], .gap)
  else if c == ']' then some ([.closing], .gap)
  else if atomChar c then some ([], .atom [c])
  else none

/-- The tokens of the rest of a line. In a string each character stands for its ASCII code, `\0` for 0x00 and `\xHH` for
the byte 0xHH (rule R98). Blanks may be absent, before a string too (log entry 11). -/
def lex : LexMode → List Char → Option (List Token)
  | .gap, [] => some []
  | .comment, [] => some []
  | .atom acc, [] => do some [← atomToken acc]
  | .text _, [] => none
  | .escape _, [] => none
  | .hexHigh _, [] => none
  | .hexLow _ _, [] => none
  | .comment, _ :: cs => lex .comment cs
  | .gap, c :: cs => do
    let (ts, m) ← gapStep c
    let rest ← lex m cs
    some (ts ++ rest)
  | .atom acc, c :: cs =>
    if atomChar c then lex (.atom (acc ++ [c])) cs
    else do
      let t ← atomToken acc
      let (ts, m) ← gapStep c
      let rest ← lex m cs
      some (t :: ts ++ rest)
  | .text acc, c :: cs =>
    if c == '"' then do
      let rest ← lex .gap cs
      some (.text acc :: rest)
    else if c == '\\' then lex (.escape acc) cs
    else if c.toNat < 128 then lex (.text (acc ++ [BitVec.ofNat 8 c.toNat])) cs
    else none
  | .escape acc, c :: cs =>
    if c == '0' then lex (.text (acc ++ [0x00])) cs
    else if c == 'x' then lex (.hexHigh acc) cs
    else none
  | .hexHigh acc, c :: cs => do
    let d ← digitValue c
    lex (.hexLow acc d) cs
  | .hexLow acc high, c :: cs => do
    let d ← digitValue c
    lex (.text (acc ++ [BitVec.ofNat 8 (16 * high + d)])) cs

/-- The rest of `[b0, b1, ...]` after its opening bracket; `[]` is the empty text (log entry 11). -/
def byteList : List Token → Option (List Nat)
  | [.closing] => some []
  | [.number n, .closing] => some [n]
  | .number n :: .comma :: .number m :: rest => (byteList (.number m :: rest)).map (n :: ·)
  | _ => none

/-- The line that a list of tokens is, by the forms of rules R98 and R99; none for any other list. -/
def parseTokens : List Token → Option AsmLine
  | [] => some .blank
  | .name m :: operands =>
    if m = ['C', 'O', 'N', 'S', 'T', 'R', 'U', 'C', 'T'] then
      match operands with
      | [.number w, .comma, .number h] => some (.construct w h)
      | _ => none
    else if m = ['C', 'L', 'E', 'A', 'R'] then (if operands = [] then some .clear else none)
    else if m = ['P', 'S', 'E', 'T'] then
      match operands with
      | [.number x, .comma, .number y] => some (.pset x y)
      | _ => none
    else if m = ['P', 'C', 'L', 'R'] then
      match operands with
      | [.number x, .comma, .number y] => some (.pclr x y)
      | _ => none
    else if m = ['P', 'R', 'I', 'N', 'T'] then
      match operands with
      | [.text bytes] => some (.print (bytes.map BitVec.toNat))
      | .opening :: rest => (byteList rest).map AsmLine.print
      | _ => none
    else if m = ['R', 'D', 'B', 'Y', 'T', 'E'] then
      match operands with
      | [.number i] => some (.rdbyte i)
      | _ => none
    else if m = ['R', 'D', 'L', 'E', 'N'] then (if operands = [] then some .rdlen else none)
    else if m = ['.', 'w', 'o', 'r', 'd'] then
      match operands with
      | [.number v] => some (.word v)
      | _ => none
    else if m = ['P', 'I', 'X', 'E', 'L'] then
      match operands with
      | [.number x, .comma, .number y, .comma, .number on] => some (.pixel x y on)
      | _ => none
    else if m = ['N', 'E', 'W', 'L', 'I', 'N', 'E'] then (if operands = [] then some .newline else none)
    else none
  | _ => none

/-- The words of one line of text; none when the assembler rejects it. -/
def assembleLine (line : List Char) : Option (List Word) := do
  let tokens ← lex .gap line
  let l ← parseTokens tokens
  l.words

/-- The words of a program, its lines in order; none when a line is rejected. -/
def assemble : List (List Char) → Option (List Word)
  | [] => some []
  | line :: lines => do
    let ws ← assembleLine line
    let rest ← assemble lines
    some (ws ++ rest)

end Sys2Proof.Machine
end

