-- ==== Sys2Proof/Safety.lean ====
section
/-! DEFINITION. The terms claims use: the invariant of the state that rules R21 to R31 give, a complete command on the
stream, the end of a run (rule R240), and a series of successful PRINTs (rule R170). -/

namespace Sys2Proof.Machine

/-- The legal values of the buffer registers (rules R21 to R25, R35): all 0 while not constructed; otherwise a positive
width and height, the page count `ceil(HEIGHT / 8)` and the length `WIDTH * PAGE_COUNT`. -/
abbrev State.GeometryOk (s : State) : Prop :=
  (s.constructed = false → s.width = 0 ∧ s.height = 0 ∧ s.pageCount = 0 ∧ s.bufLen = 0) ∧
  (s.constructed = true → 1 ≤ s.width.toNat ∧ 1 ≤ s.height.toNat ∧
    s.pageCount.toNat = (s.height.toNat + 7) / 8 ∧ s.bufLen.toNat = s.width.toNat * s.pageCount.toNat)

/-- The pixel buffer is in canonical form, with no byte outside `[0, BUF_LEN)` (rules R26, R51). -/
abbrev State.PixelsOk (s : State) : Prop :=
  s.pixels.wf ∧ ∀ c ∈ s.pixels, c.1 < s.bufLen.toNat

/-- A partly received PRINT holds a header with `OP = 0x5`, at least one word is still to come, and the text so far is the
bytes of the words that came (rules R31, R160). -/
def Parser.ok : Parser → Bool
  | .idle => true
  | .payload hdr r text =>
    decide (opField hdr = 0x5#4) && decide (1 ≤ r) && decide (4 * r + text.length = 4 * payloadWords hdr)

/-- The invariant of the block. -/
structure State.Inv (s : State) : Prop where
  geometry : s.GeometryOk
  pixels : s.PixelsOk
  parser : s.parser.ok = true

/-- The words `ws` as they stand on the interfaces, with no reset among them. -/
def wordEvents (ws : List Word) : List Event := ws.map Event.word

/-- The next thing on the stream, with the parser idle, is the complete command of first word `w` and payload words `ps`;
after it comes `rest` (rules R95, R160). -/
structure State.AtCommand (s : State) (w : Word) (ps : List Word) (rest : List Event) : Prop where
  idle : s.parser = .idle
  framed : ps.length = payloadWords w
  stream : s.cmdIn = wordEvents (w :: ps) ++ rest

/-- The run on a finite stream has ended: every word was taken and `PARSER = Idle` (rule R240). Rule R240 does not say
whether a reset still pending after the last word belongs to the run: here it does, and has to be taken too (DESIGN CHOICE,
log entry 15). -/
abbrev State.RunEnded (s : State) : Prop := s.cmdIn = [] ∧ s.parser = .idle

/-- The state with one more response word, and nothing else changed: what a command that raises an error leaves (rule
R207), and what a command that only reads leaves (rule R58). -/
def State.answered (s : State) (r : Word) : State := { s with rspOut := s.rspOut ++ [r] }

/-- `t` is `s` with its last responses being `rs`. -/
abbrev State.Responds (s t : State) (rs : List Word) : Prop := t.rspOut = s.rspOut ++ rs

/-- The PRINTs of `texts`, one after another from `s`, all succeed (each answers OK) and lead to `t`. -/
def PrintsSucceed : List (List Byte) → State → State → Prop
  | [], s, t => t = s
  | text :: texts, s, t =>
    ∃ u, exec (.print text) s = .next u ∧ s.Responds u [0x00000000#32] ∧ PrintsSucceed texts u t

/-- Two states hold the same buffer: registers, pixels and configuration, whatever their streams and parser. -/
structure State.SameBuffer (s t : State) : Prop where
  constructed : s.constructed = t.constructed
  width : s.width = t.width
  height : s.height = t.height
  pageCount : s.pageCount = t.pageCount
  bufLen : s.bufLen = t.bufLen
  pixels : s.pixels = t.pixels
  config : s.config = t.config

end Sys2Proof.Machine
end

