-- ==== Sys2Proof/Certificates/Slice0/Obligations.lean ====
section
/-! DEFINITION. The statements for the provers, from the numbered rules of the specification. -/

open Sys2Proof Sys2Proof.Machine

/-! ## Encoding -/

/-- Decoding the encoding of a well-formed command gives it back, with the words after it untouched: every operand at
every value its field admits, every text of up to 255 bytes (rules R84 to R91, R92). -/
def Obligations.DecodeInvertsEncode : Prop :=
  ∀ (i : Instr) (rest : List Word), i.WellFormed → decode (encode i ++ rest) = .ok (i, rest)

/-- The other direction, for a first word that announces no payload: it is the encoding of what it decodes to, so each
such word has one meaning. -/
def Obligations.EncodeInvertsDecode : Prop :=
  ∀ (w : Word) (i : Instr), payloadWords w = 0 → decodeCommand w [] = .ok i → encode i = [w]

/-- The decoder accepts exactly the words of the opcode table: those whose bits under some row's mask are the row's
value (rules R82, R83, R92). -/
def Obligations.DecoderAcceptsOpcodeTable : Prop :=
  ∀ (w : Word) (text : List Byte), (∃ i, decodeCommand w text = .ok i) ↔ legalWord w = true

/-- No word belongs to two rows of the opcode table: wherever two rows both match, they are one row. -/
def Obligations.OpcodeRowsDisjoint : Prop :=
  ∀ (w : Word) (r q : OpcodeRow), r ∈ opcodeTable → q ∈ opcodeTable →
    r.matches w = true → q.matches w = true → r = q

/-- The six examples of encodings of rule R100 (which the specification marks as derived from rules R84 to R90),
encoded, and each read back by the decoder. -/
def Obligations.ExampleEncodings : Prop :=
  encode (.construct 128 64) = [0x10008040#32] ∧ decode [0x10008040#32] = .ok (.construct 128 64, []) ∧
  encode (.pset 5 10) = [0x3000050A#32] ∧ decode [0x3000050A#32] = .ok (.pset 5 10, []) ∧
  encode (.pclr 3 3) = [0x40000303#32] ∧ decode [0x40000303#32] = .ok (.pclr 3 3, []) ∧
  encode (.print [0x41, 0x42]) = [0x50000002#32, 0x00004241#32] ∧
  decode [0x50000002#32, 0x00004241#32] = .ok (.print [0x41, 0x42], []) ∧
  encode (.print [0x41, 0x42, 0x43, 0x44, 0x45]) = [0x50000005#32, 0x44434241#32, 0x00000045#32] ∧
  decode [0x50000005#32, 0x44434241#32, 0x00000045#32] = .ok (.print [0x41, 0x42, 0x43, 0x44, 0x45], []) ∧
  encode (.rdbyte 1023) = [0x600003FF#32] ∧ decode [0x600003FF#32] = .ok (.rdbyte 1023, [])

/-- Rule R88: character `i` of a PRINT is byte `i % 4` of payload word `i / 4`. -/
def Obligations.CharacterIsByteOfPayloadWord : Prop :=
  ∀ (hdr : Word) (ps : List Word) (i : Nat), opField hdr = 0x5#4 → ps.length = payloadWords hdr → i < textLength hdr →
    ∃ p, ps[i / 4]? = some p ∧ (payloadText hdr ps)[i]? = some (p.extractLsb' (8 * (i % 4)) 8)

/-- Rule R95: the length of a command is told by its first word: where the decoder gives a command and a rest, it took
`1 + ceil(w[7:0] / 4)` words for `OP = 0x5`, between 1 and 65, and one word for any other `OP`. -/
def Obligations.CommandLengthFromFirstWord : Prop :=
  ∀ (w : Word) (ws : List Word) (i : Instr) (rest : List Word), decode (w :: ws) = .ok (i, rest) →
    (w :: ws).length = 1 + payloadWords w + rest.length ∧ rest <:+ ws ∧ payloadWords w ≤ 64 ∧
    (opField w = 0x5#4 → payloadWords w = ((w.extractLsb' 0 8).toNat + 3) / 4) ∧
    (opField w ≠ 0x5#4 → payloadWords w = 0)

/-- Rules R98 and R99 on a line's operands: the words of every one-word form at every operand of its range, rejection
outside the range, and that every line that stands for a command encodes as words that decode to it, while `.word` and a
blank line stand for no command. That a `.word` of more than 32 bits and a third operand of `PIXEL` other than 0 and 1 are
rejected is the model's own choice, log entry 11. The words of `PRINT` are in `AssembledPrintWords`. -/
def Obligations.AssembledLineDecodes : Prop :=
  (∀ a b, a ≤ 255 → b ≤ 255 →
    (AsmLine.construct a b).words = some [0x10000000#32 ||| BitVec.ofNat 32 a <<< 8 ||| BitVec.ofNat 32 b] ∧
    (AsmLine.pset a b).words = some [0x30000000#32 ||| BitVec.ofNat 32 a <<< 8 ||| BitVec.ofNat 32 b] ∧
    (AsmLine.pclr a b).words = some [0x40000000#32 ||| BitVec.ofNat 32 a <<< 8 ||| BitVec.ofNat 32 b] ∧
    (AsmLine.pixel a b 1).words = some [0x30000000#32 ||| BitVec.ofNat 32 a <<< 8 ||| BitVec.ofNat 32 b] ∧
    (AsmLine.pixel a b 0).words = some [0x40000000#32 ||| BitVec.ofNat 32 a <<< 8 ||| BitVec.ofNat 32 b]) ∧
  (∀ a b, 255 < a ∨ 255 < b →
    (AsmLine.construct a b).words = none ∧ (AsmLine.pset a b).words = none ∧ (AsmLine.pclr a b).words = none ∧
    ∀ on, (AsmLine.pixel a b on).words = none) ∧
  (∀ a b on, 1 < on → (AsmLine.pixel a b on).words = none) ∧
  AsmLine.clear.words = some [0x20000000#32] ∧ AsmLine.rdlen.words = some [0x70000000#32] ∧
  AsmLine.newline.words = some [0x50000000#32] ∧
  (∀ i, i ≤ 8191 → (AsmLine.rdbyte i).words = some [0x60000000#32 ||| BitVec.ofNat 32 i]) ∧
  (∀ i, 8191 < i → (AsmLine.rdbyte i).words = none) ∧
  (∀ v, v < 2 ^ 32 → (AsmLine.word v).words = some [BitVec.ofNat 32 v]) ∧
  (∀ v, 2 ^ 32 ≤ v → (AsmLine.word v).words = none) ∧
  AsmLine.blank.instr = none ∧ (∀ v, (AsmLine.word v).instr = none) ∧
  (∀ (l : AsmLine) (i : Instr), l.instr = some i → ∃ ws, l.words = some ws ∧ decode ws = .ok (i, []))

/-! ## Steps and framing -/

/-- A step runs the decoded command: with the parser idle and a one-word command next on the stream, the step takes the
word and is `exec` of the command. -/
def Obligations.StepRunsDecodedCommand : Prop :=
  ∀ (s : State) (w : Word) (rest : List Event) (i : Instr), s.parser = .idle → s.cmdIn = .word w :: rest →
    decode [w] = .ok (i, []) → step s = exec i { s with cmdIn := rest }

/-- The same of every command, a PRINT with its payload included: with the parser idle and the command's words next on
the stream, as many steps as it has words run exactly it (rules R92, R95, R160). -/
def Obligations.RunTakesWholeCommand : Prop :=
  ∀ (s : State) (ws : List Word) (rest : List Event) (i : Instr), s.parser = .idle →
    s.cmdIn = wordEvents ws ++ rest → decode ws = .ok (i, []) → run ws.length s = exec i { s with cmdIn := rest }

/-- Rule R160, case by case: how `PARSER` moves for each word taken from `CMD_IN`. The last word of a PRINT executes it
with `PARSER` back at `Idle`; before that word nothing but `PARSER` changes and there is no response. -/
def Obligations.ParserMoves : Prop :=
  ∀ (s : State) (w : Word) (rest : List Event), s.cmdIn = .word w :: rest →
    let chars := [w.extractLsb' 0 8, w.extractLsb' 8 8, w.extractLsb' 16 8, w.extractLsb' 24 8]
    (s.parser = .idle → opField w ≠ 0x5#4 → step s = execute w [] { s with cmdIn := rest }) ∧
    (s.parser = .idle → opField w = 0x5#4 → w.extractLsb' 0 8 = 0#8 → step s = execute w [] { s with cmdIn := rest }) ∧
    (s.parser = .idle → opField w = 0x5#4 → w.extractLsb' 0 8 ≠ 0#8 →
      step s = .next { s with cmdIn := rest, parser := .payload w (((w.extractLsb' 0 8).toNat + 3) / 4) [] }) ∧
    (∀ hdr text, s.parser = .payload hdr 1 text →
      step s = execute hdr ((text ++ chars).take (hdr.extractLsb' 0 8).toNat) { s with cmdIn := rest, parser := .idle }) ∧
    (∀ hdr r text, s.parser = .payload hdr r text → 2 ≤ r →
      step s = .next { s with cmdIn := rest, parser := .payload hdr (r - 1) (text ++ chars) })

/-- Rule R89: the padding bytes of the last payload word have no effect: two payloads whose first `N` bytes agree lead
to one result. -/
def Obligations.PaddingBytesIgnored : Prop :=
  ∀ (s t : State) (hdr : Word) (ps qs : List Word) (rest : List Event),
    s.AtCommand hdr ps rest → t.AtCommand hdr qs rest → t = { s with cmdIn := t.cmdIn } →
    (ps.flatMap payloadBytes).take (textLength hdr) = (qs.flatMap payloadBytes).take (textLength hdr) →
    run (1 + ps.length) s = run (1 + qs.length) t

/-- Rule R93: an illegal word raises `IllegalCommand` and changes no state; an illegal PRINT header does so after the
payload words that `w[7:0]` announces are taken, whatever they contain. -/
def Obligations.IllegalWordIsFramedAndRejected : Prop :=
  ∀ (s : State) (w : Word) (ps : List Word) (rest : List Event), s.AtCommand w ps rest → legalWord w = false →
    run (1 + ps.length) s = .next { s with cmdIn := rest, rspOut := s.rspOut ++ [0x50000000#32] }

/-- Every command, legal or illegal, in every state of the invariant: taking its words one by one, no response appears
before the last of them, and then exactly one, whose bits `[27:16]` are 0 and whose `STATUS` is one of 0 to 6 (rules
R96, R97). Where `STATUS` is an error, `DATA` is 0, every register and every byte is as before the command, and `PARSER`
is `Idle` (rule R207). -/
def Obligations.OneResponsePerCommand : Prop :=
  ∀ (s : State) (w : Word) (ps : List Word) (rest : List Event), s.Inv → s.AtCommand w ps rest →
    (∀ n, n ≤ ps.length → ∃ u, run n s = .next u ∧ u.rspOut = s.rspOut) ∧
    ∃ t r, run (1 + ps.length) s = .next t ∧ t.parser = .idle ∧ t.cmdIn = rest ∧ t.rspOut = s.rspOut ++ [r] ∧
      r.extractLsb' 16 12 = 0#12 ∧ (r.extractLsb' 28 4).toNat ≤ 6 ∧
      (r.extractLsb' 28 4 ≠ 0#4 → r.extractLsb' 0 16 = 0#16 ∧ t = { s with cmdIn := rest, rspOut := s.rspOut ++ [r] })

/-- A reset between two words of a PRINT discards it: after the header and some, not all, of its payload words, then a
reset, the state is that of a reset taken before the header (rules R57, R230). -/
def Obligations.ResetDiscardsPartialPrint : Prop :=
  ∀ (s : State) (hdr : Word) (ps : List Word) (rest : List Event), s.parser = .idle → ps.length < payloadWords hdr →
    s.cmdIn = wordEvents (hdr :: ps) ++ .reset :: rest →
    run (ps.length + 2) s = .next ({ s with cmdIn := rest } : State).takeReset

/-- With nothing left on the streams there is no step: the run has ended when `PARSER = Idle`, and the block waits
inside a PRINT otherwise (rule R240). That the model writes "no step" as two named faults is its own choice, log entry
4. -/
def Obligations.EmptyStreamHasNoStep : Prop :=
  ∀ (s : State), s.cmdIn = [] →
    (s.RunEnded → step s = .fault .streamEnded) ∧ (¬ s.RunEnded → step s = .fault .waitingForPayload)

/-! ## Reset and the whole state -/

/-- Rules R39 and R233: the state at power-on. -/
def Obligations.PowerOnState : Prop :=
  State.reset.constructed = false ∧ State.reset.width = 0#8 ∧ State.reset.height = 0#8 ∧ State.reset.pageCount = 0#6 ∧
  State.reset.bufLen = 0#13 ∧ State.reset.exportView = [] ∧ (∀ a, State.reset.pixels.read a = 0#8) ∧
  State.reset.parser = .idle

/-- Rules R230, R231 and R232: a reset may come at any point of the stream; it sets every register to its reset value,
keeps the configuration, takes back no response and gives none. -/
def Obligations.ResetEvent : Prop :=
  ∀ (s : State) (rest : List Event), s.cmdIn = .reset :: rest →
    step s = .next { constructed := false, width := 0#8, height := 0#8, pageCount := 0#6, bufLen := 0#13, pixels := [],
                     parser := .idle, config := s.config, cmdIn := rest, rspOut := s.rspOut }

/-- The invariant holds after reset. -/
def Obligations.InvariantAtReset : Prop := State.reset.Inv

/-- The invariant is kept by every step: the geometry registers stay legal and agree with one another (rules R21 to
R25), the buffer stays in canonical form within `[0, BUF_LEN)` (rules R26, R51), and a partly received PRINT stays well
framed (rule R31). -/
def Obligations.EveryStepKeepsInvariant : Prop :=
  ∀ (s t : State), s.Inv → step s = .next t → t.Inv

/-- Progress: from a state of the invariant, while anything is left on the streams, the block takes it: no access falls
outside the buffer (rule R51), and no command stops the machine (rule R200). -/
def Obligations.EveryEventIsTaken : Prop :=
  ∀ (s : State), s.Inv → s.cmdIn ≠ [] → ∃ t, step s = .next t

/-- A whole finite stream: from a state of the invariant, `n` steps take its first `n` events, however many are left,
and end in a state of the invariant (rules R57, R240). -/
def Obligations.StreamIsConsumed : Prop :=
  ∀ (n : Nat) (s : State), s.Inv → n ≤ s.cmdIn.length →
    ∃ t, run n s = .next t ∧ t.Inv ∧ t.cmdIn = s.cmdIn.drop n ∧ s.rspOut <+: t.rspOut

/-- No step changes the configuration (rules R30, R66, R231). -/
def Obligations.ConfigurationNeverChanges : Prop :=
  ∀ (s t : State), step s = .next t → t.config = s.config

/-- Rule R21, "Only CONSTRUCT sets it and only reset clears it": what a step that changes `CONSTRUCTED` took. -/
def Obligations.ConstructedSetAndCleared : Prop :=
  ∀ (s t : State), s.Inv → step s = .next t →
    (s.constructed = false → t.constructed = true →
      s.parser = .idle ∧ ∃ w h rest, w ≠ 0#8 ∧ h ≠ 0#8 ∧ s.cmdIn = .word (header (.construct w h)) :: rest) ∧
    (s.constructed = true → t.constructed = false → ∃ rest, s.cmdIn = .reset :: rest)

/-- Rule R29 and the last sentences of rules R22 to R25: a step that changes a geometry register took a CONSTRUCT or a
reset. -/
def Obligations.GeometryChangesOnlyAtConstructOrReset : Prop :=
  ∀ (s t : State), s.Inv → step s = .next t →
    (t.width = s.width ∧ t.height = s.height ∧ t.pageCount = s.pageCount ∧ t.bufLen = s.bufLen) ∨
    (∃ rest, s.cmdIn = .reset :: rest) ∨
    (s.parser = .idle ∧ ∃ w h rest, s.cmdIn = .word (header (.construct w h)) :: rest)

/-! ## The coordinate translator -/

/-- Rule R120: the page of a row, also as the field `y[7:3]`. -/
def Obligations.PageOfRow : Prop :=
  ∀ (y : Byte), pageOf y = y.toNat / 8 ∧ pageOf y = (y.extractLsb' 3 5).toNat ∧ pageOf y ≤ 31

/-- Rule R121: the bit mask of a row has exactly one bit set, at position `y % 8 = y[2:0]`. -/
def Obligations.MaskOfRow : Prop :=
  ∀ (y : Byte), bitOf y = 1#8 <<< (y.toNat % 8) ∧ y.toNat % 8 = (y.extractLsb' 0 3).toNat ∧
    ∀ b, (bitOf y).getLsbD b = decide (b = y.toNat % 8)

/-- Rules R125 and R126: the page count is `ceil(H / 8)` (an equality that rule R125 marks as derived), with the rule's
values, and the buffer length is in `[1, 8160]`. -/
def Obligations.PageCountAndLength : Prop :=
  (∀ H, 1 ≤ H → pageCountOf H = (H + 7) / 8 ∧
    pageCountOf H = if H / 8 = 0 ∨ H % 8 ≠ 0 then H / 8 + 1 else H / 8) ∧
  (∀ W H, 1 ≤ W → W ≤ 255 → 1 ≤ H → H ≤ 255 →
    bufferLength W H = W * pageCountOf H ∧ 1 ≤ bufferLength W H ∧ bufferLength W H ≤ 8160) ∧
  pageCountOf 1 = 1 ∧ pageCountOf 8 = 1 ∧ pageCountOf 9 = 2 ∧ pageCountOf 64 = 8 ∧ pageCountOf 255 = 32

/-- Rule R124 (which the specification marks as derived from rules R120 to R125): every in-range coordinate has its own
bit of its own byte inside the buffer, and that bit is the pixel of the layout of rules R26 and R27. -/
def Obligations.TranslatorIsExact : Prop :=
  ∀ (s : State) (x y : Byte), s.Inv → s.inRange x y = true →
    s.indexOf x y < s.bufLen.toNat ∧ s.indexOf x y ≤ 8159 ∧
    ((s.pixels.read (s.indexOf x y) &&& bitOf y ≠ 0#8) ↔ s.pixelAt x.toNat y.toNat = true) ∧
    ∀ (x' y' : Byte), s.inRange x' y' = true → s.indexOf x' y' = s.indexOf x y → bitOf y' = bitOf y → x' = x ∧ y' = y

/-! ## CONSTRUCT and CLEAR -/

/-- Rule R130: CONSTRUCT with a positive width and height makes a new buffer of zeros with the geometry's page count and
length, whatever stood before; with a zero width or height it answers `InvalidDimensions`, and with a reserved bit set
`IllegalCommand`, and changes nothing. -/
def Obligations.ConstructCreatesBuffer : Prop :=
  ∀ (s : State) (w h : Byte),
    (w ≠ 0#8 → h ≠ 0#8 → ∃ t, exec (.construct w h) s = .next t ∧
      t.constructed = true ∧ t.width = w ∧ t.height = h ∧ t.pageCount.toNat = pageCountOf h.toNat ∧
      t.bufLen.toNat = w.toNat * pageCountOf h.toNat ∧
      t.exportView = List.replicate (w.toNat * pageCountOf h.toNat) 0#8 ∧ (∀ a, t.pixels.read a = 0#8) ∧
      t.rspOut = s.rspOut ++ [0x00000000#32] ∧ t.parser = s.parser ∧ t.config = s.config ∧ t.cmdIn = s.cmdIn) ∧
    (w = 0#8 ∨ h = 0#8 → exec (.construct w h) s = .next (s.answered 0x10000000#32)) ∧
    (∀ (word : Word) (text : List Byte), opField word = 0x1#4 → word.extractLsb' 16 12 ≠ 0#12 →
      execute word text s = .next (s.answered 0x50000000#32))

/-- Rule R131: CLEAR zeroes every byte, is idempotent, and changes nothing else; without a buffer it answers
`NotConstructed`, and with a bit of `w[27:0]` set `IllegalCommand`. -/
def Obligations.ClearZeroesBuffer : Prop :=
  ∀ (s : State),
    (s.constructed = true → ∃ t, exec .clear s = .next t ∧
      t = { s with pixels := t.pixels, rspOut := s.rspOut ++ [0x00000000#32] } ∧
      (∀ a, a < s.bufLen.toNat → t.pixels.read a = 0#8) ∧
      (∀ a, s.bufLen.toNat ≤ a → t.pixels.read a = s.pixels.read a) ∧
      exec .clear t = .next (t.answered 0x00000000#32)) ∧
    (s.constructed = false → exec .clear s = .next (s.answered 0x40000000#32)) ∧
    (∀ (word : Word) (text : List Byte), opField word = 0x2#4 → word.extractLsb' 0 28 ≠ 0#28 →
      execute word text s = .next (s.answered 0x50000000#32))

/-! ## PSET and PCLR -/

/-- Rule R132: PSET of an in-range pixel ors the row's mask into the byte at the translated index and changes no other
byte; its errors, in order. -/
def Obligations.PsetTurnsPixelOn : Prop :=
  ∀ (s : State) (x y : Byte), s.Inv →
    (s.constructed = true → x.toNat < s.width.toNat → y.toNat < s.height.toNat →
      ∃ t, exec (.pset x y) s = .next t ∧ t = { s with pixels := t.pixels, rspOut := s.rspOut ++ [0x00000000#32] } ∧
        ∀ a, t.pixels.read a =
          if a = s.indexOf x y then s.pixels.read (s.indexOf x y) ||| bitOf y else s.pixels.read a) ∧
    (s.constructed = true → s.width.toNat ≤ x.toNat ∨ s.height.toNat ≤ y.toNat →
      exec (.pset x y) s = .next (s.answered 0x20000000#32)) ∧
    (s.constructed = false → exec (.pset x y) s = .next (s.answered 0x40000000#32)) ∧
    (∀ (word : Word) (text : List Byte), opField word = 0x3#4 → word.extractLsb' 16 12 ≠ 0#12 →
      execute word text s = .next (s.answered 0x50000000#32))

/-- Rules R133 and R135: PCLR of an in-range pixel ands the bitwise complement of the row's mask into the byte at the
translated index and changes no other byte; its errors, in order. -/
def Obligations.PclrTurnsPixelOff : Prop :=
  ∀ (s : State) (x y : Byte), s.Inv →
    (s.constructed = true → x.toNat < s.width.toNat → y.toNat < s.height.toNat →
      ∃ t, exec (.pclr x y) s = .next t ∧ t = { s with pixels := t.pixels, rspOut := s.rspOut ++ [0x00000000#32] } ∧
        ∀ a, t.pixels.read a =
          if a = s.indexOf x y then s.pixels.read (s.indexOf x y) &&& (0xFF#8 ^^^ bitOf y) else s.pixels.read a) ∧
    (s.constructed = true → s.width.toNat ≤ x.toNat ∨ s.height.toNat ≤ y.toNat →
      exec (.pclr x y) s = .next (s.answered 0x20000000#32)) ∧
    (s.constructed = false → exec (.pclr x y) s = .next (s.answered 0x40000000#32)) ∧
    (∀ (word : Word) (text : List Byte), opField word = 0x4#4 → word.extractLsb' 16 12 ≠ 0#12 →
      execute word text s = .next (s.answered 0x50000000#32))

/-- Rule R134: PSET and PCLR change at most one bit of one byte, whatever they answer: every bit of every byte but bit
`Y % 8` of byte `index(X, Y)` keeps its value. -/
def Obligations.PixelCommandsTouchOneBit : Prop :=
  ∀ (s t : State) (x y : Byte) (a b : Nat), s.Inv →
    exec (.pset x y) s = .next t ∨ exec (.pclr x y) s = .next t →
    ¬ (a = s.indexOf x y ∧ b = y.toNat % 8) → (t.pixels.read a).getLsbD b = (s.pixels.read a).getLsbD b

/-- The picture a PSET or PCLR leaves: the pixel at `(X, Y)` is on or off, and every other pixel of the buffer, padding
rows included, is as it was (rules R27, R28, R132, R133). -/
def Obligations.PixelCommandsChangeOnePixel : Prop :=
  ∀ (s t : State) (x y : Byte) (on : Bool) (col row : Nat), s.Inv → s.constructed = true → s.inRange x y = true →
    exec (Instr.pixel x y on) s = .next t → col < s.width.toNat → row < 8 * s.pageCount.toNat →
    t.pixelAt col row = if col = x.toNat ∧ row = y.toNat then on else s.pixelAt col row

/-- Rule R136 (which the specification marks as derived from rules R132 to R134): a PSET followed by a PCLR of the same
in-range pixel leaves the byte with that bit cleared and every other byte as it was; the buffer is restored exactly when
the pixel was off before. -/
def Obligations.SetThenClear : Prop :=
  ∀ (s : State) (x y : Byte), s.Inv → s.constructed = true → s.inRange x y = true →
    ∃ t u, exec (.pset x y) s = .next t ∧ exec (.pclr x y) t = .next u ∧
      (∀ a, u.pixels.read a =
        if a = s.indexOf x y then s.pixels.read a &&& ~~~bitOf y else s.pixels.read a) ∧
      (u.pixels = s.pixels ↔ s.pixelAt x.toNat y.toNat = false)

/-! ## PRINT -/

/-- Rule R162: the render count is at most 25 and at most `N`, no rendered byte is 0x00, and where it is less than both
bounds the byte it stops at is 0x00. -/
def Obligations.RenderCountStopsAtNull : Prop :=
  ∀ (t : List Byte), renderCount t ≤ 25 ∧ renderCount t ≤ t.length ∧
    (∀ i, i < renderCount t → t[i]? ≠ some 0#8) ∧
    (renderCount t < 25 → renderCount t < t.length → t[renderCount t]? = some 0#8)

/-- Characters at positions `k` and beyond are not rendered and not checked (rules R162, R210): a PRINT of a text does
exactly what a PRINT of its first `k` characters does. -/
def Obligations.CharactersPastRenderCountIgnored : Prop :=
  ∀ (s : State) (t tail : List Byte), exec (.print (t.take (renderCount t))) s = exec (.print t) s ∧
    (renderCount t < t.length → exec (.print (t.take (renderCount t + 1) ++ tail)) s = exec (.print t) s)

/-- Rule R163: what is rendered for a defined code, and for an undefined one when `P_UNDEF_GLYPH = blank`. Under `fault`
nothing undefined is rendered and the rule gives no byte: that `gbyte` is 0x00 there too is the model's own choice, log
entry 6. -/
def Obligations.GlyphByte : Prop :=
  ∀ (cfg : Config) (c : Byte) (j : Nat), j < 5 →
    (∀ g, glyphOf cfg.glyphTable c = some g → isDefined cfg c = true ∧
      gbyte cfg c j = [g.c0, g.c1, g.c2, g.c3, g.c4].getD j 0#8) ∧
    (isDefined cfg c = false → gbyte cfg c j = 0#8)

/-- Rule R167: PRINT in a state of the invariant. When its checks pass: bytes before the target page take the byte one
page on, the target page holds the glyph columns of the `k` rendered characters and zeros, and nothing else changes. The
five errors, each where no earlier one applies. -/
def Obligations.PrintScrollsAndRenders : Prop :=
  ∀ (s : State) (text : List Byte), s.Inv →
    let strictFails := s.config.printGeometry = .strict ∧ (s.height.toNat % 8 ≠ 0 ∨ s.pageCount.toNat < 8)
    let glyphFails := s.config.undefGlyph = .fault ∧
      ∃ i c, i < renderCount text ∧ text[i]? = some c ∧ isDefined s.config c = false
    let widthFails := s.config.narrowLine = .fault ∧ s.width.toNat < 5 * renderCount text
    (s.constructed = true → ¬ strictFails → ¬ glyphFails → ¬ widthFails →
      ∃ t, exec (.print text) s = .next t ∧ t = { s with pixels := t.pixels, rspOut := s.rspOut ++ [0x00000000#32] } ∧
        (∀ a, a < s.bufLen.toNat - s.width.toNat → t.pixels.read a = s.pixels.read (a + s.width.toNat)) ∧
        (∀ col, col < s.width.toNat → t.pixels.read (s.bufLen.toNat - s.width.toNat + col) =
          if col < 5 * renderCount text then gbyte s.config (text.getD (col / 5) 0#8) (col % 5) else 0#8) ∧
        (∀ a, s.bufLen.toNat ≤ a → t.pixels.read a = s.pixels.read a)) ∧
    (s.constructed = true → ¬ strictFails → ¬ glyphFails → widthFails →
      exec (.print text) s = .next (s.answered 0x20000000#32)) ∧
    (s.constructed = true → ¬ strictFails → glyphFails → exec (.print text) s = .next (s.answered 0x30000000#32)) ∧
    (s.constructed = true → strictFails → exec (.print text) s = .next (s.answered 0x60000000#32)) ∧
    (s.constructed = false → exec (.print text) s = .next (s.answered 0x40000000#32)) ∧
    (∀ (word : Word), opField word = 0x5#4 → word.extractLsb' 8 20 ≠ 0#20 →
      execute word text s = .next (s.answered 0x50000000#32))

/-- Rule R168 (which the specification marks as derived from rules R164 to R166): after a successful PRINT, page `p` is
the old page `p + 1` for every page above the bottom page, pixel by pixel. -/
def Obligations.PagesScrollUp : Prop :=
  ∀ (s t : State) (text : List Byte) (col row : Nat), s.Inv → PrintsSucceed [text] s t →
    col < s.width.toNat → row + 8 < 8 * s.pageCount.toNat → t.pixelAt col row = s.pixelAt col (row + 8)

/-- Rule R170 (which the specification marks as derived from rule R168), the history: the line a successful PRINT
renders is, after `m` further successful PRINTs, `m` pages above the bottom page, while `m` is less than the page count.
-/
def Obligations.LinesMoveUpOnePagePerPrint : Prop :=
  ∀ (s t u : State) (text : List Byte) (texts : List (List Byte)) (col : Nat), s.Inv → PrintsSucceed [text] s t →
    PrintsSucceed texts t u → texts.length < s.pageCount.toNat → col < s.width.toNat →
    u.pixels.read ((s.pageCount.toNat - 1 - texts.length) * s.width.toNat + col) =
      if col < 5 * renderCount text then gbyte s.config (text.getD (col / 5) 0#8) (col % 5) else 0#8

/-- Rule R170 (which the specification marks as derived from rule R168), the capacity: after as many successful PRINTs
as the buffer has pages, nothing of the old contents is left: two buffers of one geometry and configuration, whatever
their pixels, end with the same pixels. -/
def Obligations.PageCountPrintsReplaceEverything : Prop :=
  ∀ (s s' t t' : State) (texts : List (List Byte)), s.Inv → s'.Inv →
    s.SameBuffer { s' with pixels := s.pixels } → s.pageCount.toNat ≤ texts.length →
    PrintsSucceed texts s t → PrintsSucceed texts s' t' → t.pixels = t'.pixels

/-- Rules R171 (which the specification marks as derived from rules R167 and R20) and R20: a command's response and the
buffer it leaves depend on the buffer alone, not on the streams, on the parser or on any command before: on states that
hold the same buffer every command answers alike. -/
def Obligations.CommandsDependOnBufferAlone : Prop :=
  ∀ (s s' t : State) (i : Instr), s.SameBuffer s' → exec i s = .next t →
    ∃ t' r, exec i s' = .next t' ∧ t.SameBuffer t' ∧ t.rspOut = s.rspOut ++ [r] ∧ t'.rspOut = s'.rspOut ++ [r]

/-- Rule R210: with blank undefined glyphs, general geometry and clipping, no text is an error: a PRINT of any length
answers OK wherever a buffer exists. -/
def Obligations.TruncationAndClippingAreNotErrors : Prop :=
  ∀ (s : State) (text : List Byte), s.Inv → s.constructed = true → s.config.printGeometry = .general →
    s.config.undefGlyph = .blank → s.config.narrowLine = .clip → ∃ t, PrintsSucceed [text] s t

/-! ## RDBYTE, RDLEN and the export -/

/-- Rule R190: RDBYTE answers the byte at its index, zero-extended, and changes nothing; its errors, in order; indexes
8160 to 8191 are out of range of every buffer. -/
def Obligations.RdbyteAnswersByte : Prop :=
  ∀ (s : State) (i : BitVec 13),
    (s.constructed = true → i.toNat < s.bufLen.toNat →
      exec (.rdbyte i) s = .next (s.answered (BitVec.ofNat 32 (s.pixels.read i.toNat).toNat))) ∧
    (s.constructed = true → s.bufLen.toNat ≤ i.toNat → exec (.rdbyte i) s = .next (s.answered 0x20000000#32)) ∧
    (s.Inv → s.constructed = true → 8160 ≤ i.toNat → exec (.rdbyte i) s = .next (s.answered 0x20000000#32)) ∧
    (s.constructed = false → exec (.rdbyte i) s = .next (s.answered 0x40000000#32)) ∧
    (∀ (word : Word) (text : List Byte), opField word = 0x6#4 → word.extractLsb' 13 15 ≠ 0#15 →
      execute word text s = .next (s.answered 0x50000000#32))

/-- Rule R191: RDLEN answers `BUF_LEN`, zero-extended, a value in `[1, 8160]`, and changes nothing; its errors, in
order. -/
def Obligations.RdlenAnswersLength : Prop :=
  ∀ (s : State),
    (s.constructed = true → exec .rdlen s = .next (s.answered (BitVec.ofNat 32 s.bufLen.toNat))) ∧
    (s.Inv → s.constructed = true → 1 ≤ s.bufLen.toNat ∧ s.bufLen.toNat ≤ 8160) ∧
    (s.constructed = false → exec .rdlen s = .next (s.answered 0x40000000#32)) ∧
    (∀ (word : Word) (text : List Byte), opField word = 0x7#4 → word.extractLsb' 0 28 ≠ 0#28 →
      execute word text s = .next (s.answered 0x50000000#32))

/-- Rule R58 (which the specification marks as derived from rules R190 and R191): RDBYTE and RDLEN change no state but
the response stream, and give the same response when repeated. -/
def Obligations.ReadsHaveNoSideEffect : Prop :=
  ∀ (s t : State) (i : Instr), (∃ k, i = .rdbyte k) ∨ i = .rdlen → exec i s = .next t →
    ∃ r, t = s.answered r ∧ exec i t = .next (t.answered r)

/-- Rule R192 (which the specification marks as derived from rules R190, R191 and R61): a collaborator that sends RDLEN
and then RDBYTE for every index in order receives the length and then exactly the export view, and the rest of the
stream, the buffer and the parser are as before. -/
def Obligations.ExportReadsWholeBuffer : Prop :=
  ∀ (s : State) (rest : List Event), s.Inv → s.constructed = true → s.parser = .idle →
    s.cmdIn = wordEvents (header .rdlen ::
      (List.range s.bufLen.toNat).map (fun i => header (.rdbyte (BitVec.ofNat 13 i)))) ++ rest →
    run (1 + s.bufLen.toNat) s =
      .next { s with
        cmdIn := rest
        rspOut := s.rspOut ++ BitVec.ofNat 32 s.bufLen.toNat :: s.exportView.map (fun b => BitVec.ofNat 32 b.toNat) }

/-! ## Errors -/

/-- Rule R204 with rule R208's order: without a buffer every command but CONSTRUCT answers `NotConstructed`, whatever
its operands, and changes nothing. -/
def Obligations.NotConstructedBeforeConstruct : Prop :=
  ∀ (s : State) (i : Instr), s.constructed = false → (∀ w h, i ≠ .construct w h) →
    exec i s = .next (s.answered 0x40000000#32)

/-- Rule R207: a command that raises an error changes no register and no byte: the state it leaves is the state before
with its one response. -/
def Obligations.ErrorsLeaveNoTrace : Prop :=
  ∀ (s t : State) (i : Instr), exec i s = .next t →
    ∃ r, t.rspOut = s.rspOut ++ [r] ∧ (r.extractLsb' 28 4 ≠ 0#4 → t = s.answered r)

/-- Rule R201, "by CONSTRUCT, and only by it": which commands answer `InvalidDimensions`. -/
def Obligations.InvalidDimensionsCause : Prop :=
  ∀ (s t : State) (i : Instr), exec i s = .next t →
    (t.rspOut = s.rspOut ++ [0x10000000#32] ↔ ∃ w h, i = .construct w h ∧ (w = 0#8 ∨ h = 0#8))

/-- Rule R202, the whole table: which commands answer `OutOfRange`, where no earlier check answers first (rule R208). -/
def Obligations.OutOfRangeCause : Prop :=
  ∀ (s t : State) (i : Instr), s.Inv → exec i s = .next t →
    (t.rspOut = s.rspOut ++ [0x20000000#32] ↔ s.constructed = true ∧
      ((∃ x y, (i = .pset x y ∨ i = .pclr x y) ∧ (s.width.toNat ≤ x.toNat ∨ s.height.toNat ≤ y.toNat)) ∨
       (∃ k, i = .rdbyte k ∧ s.bufLen.toNat ≤ k.toNat) ∨
       (∃ text, i = .print text ∧ s.config.narrowLine = .fault ∧ s.width.toNat < 5 * renderCount text ∧
         ¬ (s.config.printGeometry = .strict ∧ (s.height.toNat % 8 ≠ 0 ∨ s.pageCount.toNat < 8)) ∧
         ¬ (s.config.undefGlyph = .fault ∧
           ∃ c, c ∈ text.take (renderCount text) ∧ isDefined s.config c = false))))

/-- Rules R203 and R206, "by PRINT, and only by it": which commands answer `UndefinedGlyph` and which
`GeometryUnsupported`; under the policies `blank` and `general` none does. -/
def Obligations.PrintOnlyErrors : Prop :=
  ∀ (s t : State) (i : Instr), exec i s = .next t →
    (t.rspOut = s.rspOut ++ [0x60000000#32] ↔ s.constructed = true ∧ ∃ text, i = .print text ∧
      s.config.printGeometry = .strict ∧ (s.height.toNat % 8 ≠ 0 ∨ s.pageCount.toNat < 8)) ∧
    (t.rspOut = s.rspOut ++ [0x30000000#32] ↔ s.constructed = true ∧ ∃ text, i = .print text ∧
      s.config.undefGlyph = .fault ∧ (∃ c, c ∈ text.take (renderCount text) ∧ isDefined s.config c = false) ∧
      ¬ (s.config.printGeometry = .strict ∧ (s.height.toNat % 8 ≠ 0 ∨ s.pageCount.toNat < 8)))

/-- The frame of every command. All keep the rest of the stream, the parser and the configuration, and append one response;
one that raises an error changes nothing else. All but CONSTRUCT keep every register and every byte outside `[0, BUF_LEN)`.
PSET and PCLR keep every byte but the one at `index(X, Y)`; RDBYTE and RDLEN keep all of `PIXELS`; so only CONSTRUCT, CLEAR
and PRINT may change the whole buffer (rules R22 to R25, R29, R51, R56, R134, R207). -/
def Obligations.CommandFrame : Prop :=
  ∀ (s t : State) (i : Instr), s.Inv → exec i s = .next t →
    t.parser = s.parser ∧ t.cmdIn = s.cmdIn ∧ t.config = s.config ∧
    (∃ r, t.rspOut = s.rspOut ++ [r] ∧ (r.extractLsb' 28 4 ≠ 0#4 → t = s.answered r)) ∧
    ((∀ w h, i ≠ .construct w h) →
      t.constructed = s.constructed ∧ t.width = s.width ∧ t.height = s.height ∧ t.pageCount = s.pageCount ∧
      t.bufLen = s.bufLen ∧ ∀ a, s.bufLen.toNat ≤ a → t.pixels.read a = s.pixels.read a) ∧
    (∀ x y, i = .pset x y ∨ i = .pclr x y → ∀ a, a ≠ s.indexOf x y → t.pixels.read a = s.pixels.read a) ∧
    ((∃ k, i = .rdbyte k) ∨ i = .rdlen → t.pixels = s.pixels)

/-! ## The assembler's PRINT -/

/-- Rule R98's `PRINT` on its character bytes: the header, then `ceil(N / 4)` payload words by rule R88 with padding bytes 0,
for at most 255 bytes of 0 to 255, and rejection of any other. That a byte number above 255 is rejected, and that an empty
list is accepted, is the model's own choice, log entry 11. -/
def Obligations.AssembledPrintWords : Prop :=
  ∀ (bytes : List Nat),
    ((∀ b ∈ bytes, b ≤ 255) → bytes.length ≤ 255 →
      ∃ ps, (AsmLine.print bytes).words = some ((0x50000000#32 ||| BitVec.ofNat 32 bytes.length) :: ps) ∧
        ps.length = (bytes.length + 3) / 4 ∧
        ∀ i, i < 4 * ps.length →
          ∃ p, ps[i / 4]? = some p ∧ p.extractLsb' (8 * (i % 4)) 8 = BitVec.ofNat 8 (bytes.getD i 0)) ∧
    ((∃ b ∈ bytes, 255 < b) ∨ 255 < bytes.length → (AsmLine.print bytes).words = none)
end

