-- ==== Sys2Proof/Laws/Decode.lean ====
section
/-! SUPPORT. The fields of the words the encoder makes, and the bytes of the payload words it packs. -/

namespace Sys2Proof

theorem packPayload_length (t : List Byte) : (packPayload t).length = (t.length + 3) / 4 := by
  fun_induction packPayload t <;> simp_all
  omega

/-- The bytes of one packed payload word. -/
theorem payloadBytes_append (a b c d : Byte) : payloadBytes (d ++ c ++ b ++ a) = [a, b, c, d] := by
  have h : ∀ (lo : Nat) (x : Byte) (w : Word), (∀ i, i < 8 → w.getLsbD (lo + i) = x.getLsbD i) →
      w.extractLsb' lo 8 = x := by
    intro lo x w hw
    apply BitVec.eq_of_getLsbD_eq
    intro i hi
    simp [hi, hw i hi]
  unfold payloadBytes
  refine congrArg₂ List.cons (h _ _ _ ?_) (congrArg₂ List.cons (h _ _ _ ?_)
    (congrArg₂ List.cons (h _ _ _ ?_) (congrArg₂ List.cons (h _ _ _ ?_) rfl))) <;> intro i hi
  · simp only [BitVec.getLsbD_append]
    rw [if_pos (by omega), Nat.zero_add]
  · simp only [BitVec.getLsbD_append]
    rw [if_neg (by omega), if_pos (by omega), show 8 + i - 8 = i by omega]
  · simp only [BitVec.getLsbD_append]
    rw [if_neg (by omega), if_neg (by omega), if_pos (by omega), show 16 + i - 8 - 8 = i by omega]
  · simp only [BitVec.getLsbD_append]
    rw [if_neg (by omega), if_neg (by omega), if_neg (by omega), show 24 + i - 8 - 8 - 8 = i by omega]

/-- The field `[lo + len - 1 : lo]` of a word, bit by bit. -/
theorem extractLsb'_eq_iff {w : Word} {lo len : Nat} {x : BitVec len} :
    w.extractLsb' lo len = x ↔ ∀ i, i < len → w.getLsbD (lo + i) = x.getLsbD i := by
  constructor
  · rintro rfl i hi
    simp [hi]
  · intro h
    apply BitVec.eq_of_getLsbD_eq
    intro i hi
    simp [hi, h i hi]

/-! ## Words as numbers -/

theorem toNat_append_eq {m n : Nat} (x : BitVec m) (y : BitVec n) : (x ++ y).toNat = x.toNat * 2 ^ n + y.toNat := by
  rw [BitVec.toNat_append, ← Nat.shiftLeft_add_eq_or_of_lt y.isLt, Nat.shiftLeft_eq]

/-- A field as a number. -/
theorem field_toNat (w : Word) (lo len : Nat) : (w.extractLsb' lo len).toNat = w.toNat / 2 ^ lo % 2 ^ len := by
  rw [BitVec.extractLsb'_toNat, Nat.shiftRight_eq_div_pow]

theorem field_eq_iff (w : Word) (lo len : Nat) (x : BitVec len) :
    w.extractLsb' lo len = x ↔ w.toNat / 2 ^ lo % 2 ^ len = x.toNat := by
  rw [← field_toNat, BitVec.toNat_inj]

theorem opField_toNat (w : Word) : (opField w).toNat = w.toNat / 2 ^ 28 := by
  have hw : w.toNat < 2 ^ 32 := w.isLt
  rw [opField, field_toNat]
  omega

theorem textLength_lt (w : Word) : textLength w < 256 := (lowField w).isLt

/-- The first word of a command as a number. -/
theorem header_toNat (i : Instr) :
    (header i).toNat =
      match i with
      | .construct w h => 0x10000000 + w.toNat * 256 + h.toNat
      | .clear => 0x20000000
      | .pset x y => 0x30000000 + x.toNat * 256 + y.toNat
      | .pclr x y => 0x40000000 + x.toNat * 256 + y.toNat
      | .print t => 0x50000000 + t.length % 256
      | .rdbyte k => 0x60000000 + k.toNat
      | .rdlen => 0x70000000 := by
  cases i <;> simp only [header, toNat_append_eq, BitVec.toNat_ofNat] <;> omega

/-! ## The decoder -/

/-- What a word that decodes is, as a number, by the command it decodes to. -/
theorem decodeCommand_ok {w : Word} {text : List Byte} {i : Instr} (h : decodeCommand w text = .ok i) :
    (∃ a b, i = .construct a b ∧ w.toNat = 0x10000000 + a.toNat * 256 + b.toNat) ∨
    (i = .clear ∧ w.toNat = 0x20000000) ∨
    (∃ a b, i = .pset a b ∧ w.toNat = 0x30000000 + a.toNat * 256 + b.toNat) ∨
    (∃ a b, i = .pclr a b ∧ w.toNat = 0x40000000 + a.toNat * 256 + b.toNat) ∨
    (i = .print text ∧ w.toNat = 0x50000000 + textLength w) ∨
    (∃ k, i = .rdbyte k ∧ w.toNat = 0x60000000 + k.toNat) ∨
    (i = .rdlen ∧ w.toNat = 0x70000000) := by
  have e1 : (opField w).toNat = w.toNat / 2 ^ 28 % 2 ^ 4 := field_toNat _ _ _
  have e2 : (highField w).toNat = w.toNat / 2 ^ 8 % 2 ^ 8 := field_toNat _ _ _
  have e3 : (lowField w).toNat = w.toNat / 2 ^ 0 % 2 ^ 8 := field_toNat _ _ _
  have e4 : (indexField w).toNat = w.toNat / 2 ^ 0 % 2 ^ 13 := field_toNat _ _ _
  have e5 : textLength w = w.toNat / 2 ^ 0 % 2 ^ 8 := e3
  have hw : w.toNat < 2 ^ 32 := w.isLt
  unfold decodeCommand at h
  simp only [field_eq_iff, BitVec.toNat_ofNat] at h
  split at h
  · split at h <;> cases h
    exact .inl ⟨_, _, rfl, by omega⟩
  · split at h <;> cases h
    exact .inr (.inl ⟨rfl, by omega⟩)
  · split at h <;> cases h
    exact .inr (.inr (.inl ⟨_, _, rfl, by omega⟩))
  · split at h <;> cases h
    exact .inr (.inr (.inr (.inl ⟨_, _, rfl, by omega⟩)))
  · split at h <;> cases h
    exact .inr (.inr (.inr (.inr (.inl ⟨rfl, by omega⟩))))
  · split at h <;> cases h
    exact .inr (.inr (.inr (.inr (.inr (.inl ⟨_, rfl, by omega⟩)))))
  · split at h <;> cases h
    exact .inr (.inr (.inr (.inr (.inr (.inr ⟨rfl, by omega⟩)))))
  · cases h

/-- What a word decodes to, from the number it is. -/
theorem decodeCommand_of_toNat {w : Word} (text : List Byte) :
    (∀ a b : Byte, w.toNat = 0x10000000 + a.toNat * 256 + b.toNat → decodeCommand w text = .ok (.construct a b)) ∧
    (w.toNat = 0x20000000 → decodeCommand w text = .ok .clear) ∧
    (∀ a b : Byte, w.toNat = 0x30000000 + a.toNat * 256 + b.toNat → decodeCommand w text = .ok (.pset a b)) ∧
    (∀ a b : Byte, w.toNat = 0x40000000 + a.toNat * 256 + b.toNat → decodeCommand w text = .ok (.pclr a b)) ∧
    (∀ n, n < 256 → w.toNat = 0x50000000 + n → decodeCommand w text = .ok (.print text)) ∧
    (∀ k : BitVec 13, w.toNat = 0x60000000 + k.toNat → decodeCommand w text = .ok (.rdbyte k)) ∧
    (w.toNat = 0x70000000 → decodeCommand w text = .ok .rdlen) := by
  have e1 : (opField w).toNat = w.toNat / 2 ^ 28 % 2 ^ 4 := field_toNat _ _ _
  have e2 : (highField w).toNat = w.toNat / 2 ^ 8 % 2 ^ 8 := field_toNat _ _ _
  have e3 : (lowField w).toNat = w.toNat / 2 ^ 0 % 2 ^ 8 := field_toNat _ _ _
  have e4 : (indexField w).toNat = w.toNat / 2 ^ 0 % 2 ^ 13 := field_toNat _ _ _
  have hw : w.toNat < 2 ^ 32 := w.isLt
  unfold decodeCommand
  simp only [field_eq_iff, BitVec.toNat_ofNat]
  refine ⟨fun a b h => ?_, fun h => ?_, fun a b h => ?_, fun a b h => ?_, fun n hn h => ?_, fun k h => ?_, fun h => ?_⟩
  · rw [show (opField w).toNat = 1 by omega]
    simp only
    rw [if_pos (by omega)]
    congr 2 <;> exact BitVec.eq_of_toNat_eq (by omega)
  · rw [show (opField w).toNat = 2 by omega]
    simp only
    rw [if_pos (by omega)]
  · rw [show (opField w).toNat = 3 by omega]
    simp only
    rw [if_pos (by omega)]
    congr 2 <;> exact BitVec.eq_of_toNat_eq (by omega)
  · rw [show (opField w).toNat = 4 by omega]
    simp only
    rw [if_pos (by omega)]
    congr 2 <;> exact BitVec.eq_of_toNat_eq (by omega)
  · rw [show (opField w).toNat = 5 by omega]
    simp only
    rw [if_pos (by omega)]
  · rw [show (opField w).toNat = 6 by omega]
    simp only
    rw [if_pos (by omega)]
    congr 2
    exact BitVec.eq_of_toNat_eq (by omega)
  · rw [show (opField w).toNat = 7 by omega]
    simp only
    rw [if_pos (by omega)]

/-- When the decoder takes a whole word list, the words after the first are the announced payload. -/
theorem decode_whole {w : Word} {ps : List Word} {i : Instr} (h : decode (w :: ps) = .ok (i, [])) :
    ps.length = payloadWords w ∧ decodeCommand w (payloadText w ps) = .ok i := by
  simp only [decode] at h
  split at h
  · cases h
  · split at h
    · rename_i hd
      injection h with h
      injection h with h1 h2
      have hlen := List.drop_eq_nil_iff.1 h2
      subst h1
      rw [List.take_of_length_le (by omega)] at hd
      exact ⟨by omega, hd⟩
    · cases h

/-! ## Packing -/

/-- The bytes of the packed payload are the text, then padding. -/
theorem payloadBytes_packPayload (t : List Byte) : ∃ pad, (packPayload t).flatMap payloadBytes = t ++ pad := by
  fun_induction packPayload t with
  | case1 => exact ⟨[], rfl⟩
  | case2 a => exact ⟨[0, 0, 0], by simpa using payloadBytes_append a 0 0 0⟩
  | case3 a b => exact ⟨[0, 0], by simpa using payloadBytes_append a b 0 0⟩
  | case4 a b c => exact ⟨[0], by simpa using payloadBytes_append a b c 0⟩
  | case5 a b c d r ih =>
    obtain ⟨pad, hp⟩ := ih
    exact ⟨pad, by simp [payloadBytes_append, hp]⟩

end Sys2Proof
end

