-- ==== Sys2Proof/Laws/Assembler.lean ====
section
/-! SUPPORT. What the assembler makes of an operand: `byteOperand` and a list of byte numbers, in range and out of range;
and the bytes of packed payload words, padding included. -/

namespace Sys2Proof.Machine

theorem byteOperand_of_le {n : Nat} (h : n ≤ 255) : byteOperand n = some (BitVec.ofNat 8 n) := if_pos h

theorem byteOperand_of_gt {n : Nat} (h : 255 < n) : byteOperand n = none := if_neg (by omega)

/-- A list of byte numbers, all in range. -/
theorem mapM_byteOperand_of_le {bytes : List Nat} (h : ∀ b ∈ bytes, b ≤ 255) :
    bytes.mapM byteOperand = some (bytes.map (BitVec.ofNat 8)) := by
  induction bytes with
  | nil => rfl
  | cons b bs ih =>
    rw [List.mapM_cons, byteOperand_of_le (h b (by simp)), ih fun c hc => h c (by simp [hc])]
    rfl

/-- A list of byte numbers, one of them out of range. -/
theorem mapM_byteOperand_of_gt {bytes : List Nat} (h : ∃ b ∈ bytes, 255 < b) : bytes.mapM byteOperand = none := by
  induction bytes with
  | nil => simp at h
  | cons b bs ih =>
    rw [List.mapM_cons]
    by_cases hb : 255 < b
    · rw [byteOperand_of_gt hb]
      rfl
    · obtain ⟨c, hc, hgt⟩ := h
      rw [byteOperand_of_le (by omega), ih ⟨c, by
        rcases List.mem_cons.1 hc with rfl | hc
        · exact absurd hgt hb
        · exact hc, hgt⟩]
      rfl

/-- Byte `i` of the word packed from four characters. -/
theorem packed_byte (a b c d : Byte) (i : Nat) (hi : i < 4) :
    (d ++ c ++ b ++ a : Word).extractLsb' (8 * i) 8 = [a, b, c, d].getD i 0 := by
  have h := payloadBytes_append a b c d
  simp only [payloadBytes, List.cons.injEq, and_true] at h
  match i, hi with
  | 0, _ => exact h.1
  | 1, _ => exact h.2.1
  | 2, _ => exact h.2.2.1
  | 3, _ => exact h.2.2.2

/-- One payload word `w` that is packed from the characters `t` and padding bytes 0. -/
theorem lone_word_byte {w : Word} {a b c d : Byte} {t : List Byte} (hw : w = d ++ c ++ b ++ a)
    (ht : ∀ i, i < 4 → [a, b, c, d].getD i 0 = t.getD i 0) :
    ∀ i, i < 4 * [w].length → ∃ p, [w][i / 4]? = some p ∧ p.extractLsb' (8 * (i % 4)) 8 = t.getD i 0 := by
  intro i hi
  have hi : i < 4 := hi
  refine ⟨w, by rw [Nat.div_eq_of_lt hi]; rfl, ?_⟩
  rw [Nat.mod_eq_of_lt hi, hw, packed_byte a b c d i hi, ht i hi]

/-- Character `i` of packed payload words, with the padding bytes 0 (rules R88, R98). -/
theorem packPayload_byte (t : List Byte) :
    ∀ i, i < 4 * (packPayload t).length →
      ∃ p, (packPayload t)[i / 4]? = some p ∧ p.extractLsb' (8 * (i % 4)) 8 = t.getD i 0 := by
  fun_induction packPayload t with
  | case1 => exact fun i hi => absurd hi (by simp)
  | case2 a =>
    refine lone_word_byte (a := a) (b := 0) (c := 0) (d := 0) (by simp) fun i hi => ?_
    match i, hi with
    | 0, _ | 1, _ | 2, _ | 3, _ => rfl
  | case3 a b =>
    refine lone_word_byte (a := a) (b := b) (c := 0) (d := 0) (by simp) fun i hi => ?_
    match i, hi with
    | 0, _ | 1, _ | 2, _ | 3, _ => rfl
  | case4 a b c =>
    refine lone_word_byte (a := a) (b := b) (c := c) (d := 0) (by simp) fun i hi => ?_
    match i, hi with
    | 0, _ | 1, _ | 2, _ | 3, _ => rfl
  | case5 a b c d r ih =>
    intro i hi
    rcases Nat.lt_or_ge i 4 with h4 | h4
    · refine ⟨_, by rw [Nat.div_eq_of_lt h4]; rfl, ?_⟩
      rw [Nat.mod_eq_of_lt h4, packed_byte a b c d i h4]
      match i, h4 with
      | 0, _ | 1, _ | 2, _ | 3, _ => rfl
    · obtain ⟨j, rfl⟩ := Nat.exists_eq_add_of_le' h4
      simp only [List.length_cons] at hi
      obtain ⟨p, hp, hb⟩ := ih j (by omega)
      refine ⟨p, by simpa [Nat.add_div_right] using hp, ?_⟩
      rw [Nat.add_mod_right, hb]
      simp

end Sys2Proof.Machine
end

