-- ==== Sys2Proof/Laws/Memory.lean ====
section
/-! SUPPORT. The laws of the pixel buffer's cells: a read after a write or a range write, and that both keep the canonical
form. -/

namespace Sys2Proof.Machine

namespace Memory

@[simp] theorem read_nil (a : Nat) : Memory.read [] a = unlisted := rfl

theorem read_cons (k : Nat) (b : Byte) (m : Memory) (a : Nat) :
    Memory.read ((k, b) :: m) a = if k = a then b else Memory.read m a := rfl

/-- An index that no cell has reads as an unlisted index. -/
theorem read_of_not_listed {m : Memory} {a : Nat} (h : ∀ c ∈ m, c.1 ≠ a) : m.read a = unlisted := by
  induction m with
  | nil => rfl
  | cons c m ih =>
    obtain ⟨k, b⟩ := c
    have hk : k ≠ a := h (k, b) (by simp)
    simp [read_cons, hk, ih fun c hc => h c (by simp [hc])]

/-- In canonical form a cell of the list is what its index reads as. -/
theorem read_of_mem {m : Memory} (hm : m.wf) {a : Nat} {b : Byte} (h : (a, b) ∈ m) : m.read a = b := by
  induction m with
  | nil => simp at h
  | cons c m ih =>
    obtain ⟨k, v⟩ := c
    have hp := List.pairwise_cons.1 hm.1
    rcases List.mem_cons.1 h with h | h
    · obtain ⟨rfl, rfl⟩ := Prod.mk.inj h
      simp [read_cons]
    · have : k < a := hp.1 _ h
      have hka : k ≠ a := by omega
      simp [read_cons, hka, ih ⟨hp.2, fun c hc => hm.2 c (by simp [hc])⟩ h]

theorem read_append_right {m n : Memory} {a : Nat} (h : ∀ c ∈ m, c.1 ≠ a) :
    Memory.read (m ++ n) a = n.read a := by
  induction m with
  | nil => rfl
  | cons c m ih =>
    obtain ⟨k, b⟩ := c
    have hk : k ≠ a := h (k, b) (by simp)
    simp [read_cons, hk, ih fun c hc => h c (by simp [hc])]

theorem read_append_left {m n : Memory} {a : Nat} (h : ∀ c ∈ n, c.1 ≠ a) :
    Memory.read (m ++ n) a = m.read a := by
  induction m with
  | nil => simpa using read_of_not_listed h
  | cons c m ih =>
    obtain ⟨k, b⟩ := c
    simp [read_cons, ih]

theorem read_filter {m : Memory} {p : Host.Cell → Bool} {a : Nat} (h : ∀ b, p (a, b) = true) :
    Memory.read (m.filter p) a = m.read a := by
  induction m with
  | nil => rfl
  | cons c m ih =>
    obtain ⟨k, b⟩ := c
    by_cases hk : k = a
    · subst hk
      simp [h b, read_cons]
    · by_cases hp : p (k, b) = true
      · simp [hp, read_cons, hk, ih]
      · simp [hp, read_cons, hk, ih]

theorem mem_cell {a : Nat} {v : Byte} {c : Host.Cell} : c ∈ cell a v ↔ v ≠ unlisted ∧ c = (a, v) := by
  unfold cell
  split <;> simp_all

theorem read_cell (a : Nat) (v : Byte) : (cell a v).read a = v := by
  unfold cell
  split <;> simp_all [read_cons]

/-- The cells of a range write: the range reads as `f`, everything else as unlisted. -/
theorem read_flatMap_cell (lo n : Nat) (f : Nat → Byte) (a : Nat) :
    Memory.read ((List.range' lo n).flatMap fun i => cell i (f i)) a =
      if lo ≤ a ∧ a < lo + n then f a else unlisted := by
  induction n generalizing lo with
  | zero =>
    rw [if_neg (by omega)]
    rfl
  | succ n ih =>
    rw [List.range'_succ, List.flatMap_cons]
    by_cases h : a = lo
    · subst h
      rw [read_append_left, read_cell, if_pos (by omega)]
      intro c hc
      simp only [List.mem_flatMap, List.mem_range'_1, mem_cell] at hc
      obtain ⟨i, hi, -, rfl⟩ := hc
      exact (by omega : i ≠ a)
    · rw [read_append_right, ih]
      · by_cases h2 : lo + 1 ≤ a ∧ a < lo + 1 + n
        · rw [if_pos h2, if_pos (by omega)]
        · rw [if_neg h2, if_neg (by omega)]
      · intro c hc
        obtain ⟨-, rfl⟩ := mem_cell.1 hc
        exact fun e => h e.symm

/-- A range write: the range reads as `f`, and every other index as before. -/
theorem read_fill (m : Memory) (lo n : Nat) (f : Nat → Byte) (a : Nat) :
    (m.fill lo n f).read a = if lo ≤ a ∧ a < lo + n then f a else m.read a := by
  unfold fill
  by_cases h1 : a < lo
  · rw [if_neg (by omega), read_append_left, read_append_left, read_filter]
    · simpa using h1
    · intro c hc
      simp only [List.mem_flatMap, List.mem_range'_1, mem_cell] at hc
      obtain ⟨i, hi, -, rfl⟩ := hc
      exact (by omega : i ≠ a)
    · intro c hc
      have := of_decide_eq_true (List.mem_filter.1 hc).2
      omega
  · have hlow : ∀ c ∈ m.filter (fun c => decide (c.1 < lo)), c.1 ≠ a := by
      intro c hc
      have := of_decide_eq_true (List.mem_filter.1 hc).2
      omega
    by_cases h2 : a < lo + n
    · rw [if_pos (by omega), read_append_left, read_append_right hlow, read_flatMap_cell, if_pos (by omega)]
      intro c hc
      have := of_decide_eq_true (List.mem_filter.1 hc).2
      omega
    · rw [if_neg (by omega), read_append_right, read_filter]
      · simpa using h2
      · intro c hc
        rcases List.mem_append.1 hc with hc | hc
        · exact hlow c hc
        · simp only [List.mem_flatMap, List.mem_range'_1, mem_cell] at hc
          obtain ⟨i, hi, -, rfl⟩ := hc
          exact (by omega : i ≠ a)

theorem mem_fill {m : Memory} {lo n : Nat} {f : Nat → Byte} {c : Host.Cell} (h : c ∈ m.fill lo n f) :
    (c ∈ m ∧ (c.1 < lo ∨ lo + n ≤ c.1)) ∨ (lo ≤ c.1 ∧ c.1 < lo + n ∧ c.2 = f c.1 ∧ c.2 ≠ unlisted) := by
  unfold fill at h
  simp only [List.mem_append, List.mem_filter, decide_eq_true_eq, List.mem_flatMap, List.mem_range'_1, mem_cell] at h
  rcases h with (⟨h, hl⟩ | ⟨i, hi, hv, rfl⟩) | ⟨h, hl⟩
  · exact .inl ⟨h, .inl hl⟩
  · exact .inr ⟨hi.1, hi.2, rfl, hv⟩
  · exact .inl ⟨h, .inr hl⟩

/-- A range write keeps the canonical form. -/
theorem wf_fill {m : Memory} (hm : m.wf) (lo n : Nat) (f : Nat → Byte) : (m.fill lo n f).wf := by
  refine ⟨?_, ?_⟩
  · unfold fill
    rw [List.pairwise_append, List.pairwise_append]
    refine ⟨⟨hm.1.filter _, ?_, ?_⟩, hm.1.filter _, ?_⟩
    · clear hm
      induction n generalizing lo with
      | zero => simp
      | succ n ih =>
        rw [List.range'_succ, List.flatMap_cons, List.pairwise_append]
        refine ⟨?_, ih (lo + 1), ?_⟩
        · unfold cell
          split <;> simp
        · intro a ha b hb
          obtain ⟨-, rfl⟩ := mem_cell.1 ha
          simp only [List.mem_flatMap, List.mem_range'_1, mem_cell] at hb
          obtain ⟨i, hi, -, rfl⟩ := hb
          exact (by omega : lo < i)
    · intro a ha b hb
      have := of_decide_eq_true (List.mem_filter.1 ha).2
      simp only [List.mem_flatMap, List.mem_range'_1, mem_cell] at hb
      obtain ⟨i, hi, -, rfl⟩ := hb
      exact (by omega : a.1 < i)
    · intro a ha b hb
      have hb' := of_decide_eq_true (List.mem_filter.1 hb).2
      rcases List.mem_append.1 ha with ha | ha
      · have := of_decide_eq_true (List.mem_filter.1 ha).2
        omega
      · simp only [List.mem_flatMap, List.mem_range'_1, mem_cell] at ha
        obtain ⟨i, hi, -, rfl⟩ := ha
        exact (by omega : i < b.1)
  · intro c hc
    rcases mem_fill hc with h | h
    · exact hm.2 c h.1
    · exact h.2.2.2

theorem mem_write {m : Memory} {a : Nat} {v : Byte} {c : Host.Cell} (h : c ∈ m.write a v) :
    c ∈ m ∨ c = (a, v) ∧ v ≠ unlisted := by
  induction m with
  | nil => exact .inr (And.comm.1 (mem_cell.1 h))
  | cons x m ih =>
    obtain ⟨k, b⟩ := x
    unfold write at h
    split at h
    · rcases List.mem_append.1 h with h | h
      · exact .inr (And.comm.1 (mem_cell.1 h))
      · exact .inl h
    · split at h
      · rcases List.mem_append.1 h with h | h
        · exact .inr (And.comm.1 (mem_cell.1 h))
        · exact .inl (List.mem_cons_of_mem _ h)
      · rcases List.mem_cons.1 h with h | h
        · exact .inl (by simp [h])
        · rcases ih h with h | h
          · exact .inl (List.mem_cons_of_mem _ h)
          · exact .inr h

/-- A write keeps the canonical form. -/
theorem wf_write {m : Memory} (hm : m.wf) (a : Nat) (v : Byte) : (m.write a v).wf := by
  refine ⟨?_, ?_⟩
  · induction m with
    | nil =>
      unfold write cell
      split <;> simp
    | cons x m ih =>
      obtain ⟨k, b⟩ := x
      have hp := List.pairwise_cons.1 hm.1
      have hm' : Memory.wf m := ⟨hp.2, fun c hc => hm.2 c (by simp [hc])⟩
      unfold write
      split
      · rename_i hlt
        unfold cell
        split
        · exact hm.1
        · refine List.pairwise_cons.2 ⟨?_, hm.1⟩
          intro c hc
          rcases List.mem_cons.1 hc with rfl | hc
          · exact hlt
          · exact Nat.lt_trans hlt (hp.1 c hc)
      · split
        · rename_i heq
          subst heq
          unfold cell
          split
          · exact hp.2
          · exact List.pairwise_cons.2 ⟨hp.1, hp.2⟩
        · refine List.pairwise_cons.2 ⟨?_, ih hm'⟩
          intro c hc
          rcases mem_write hc with h | ⟨rfl, -⟩
          · exact hp.1 c h
          · show k < a
            omega
  · intro c hc
    rcases mem_write hc with h | ⟨rfl, h⟩
    · exact hm.2 c h
    · exact h

/-- A read after a write in canonical form. -/
theorem read_write {m : Memory} (hm : m.wf) (a : Nat) (v : Byte) (b : Nat) :
    (m.write a v).read b = if b = a then v else m.read b := by
  induction m with
  | nil =>
    unfold write cell
    split
    · split <;> simp_all
    · by_cases h : b = a
      · simp [read_cons, h]
      · have h' : ¬a = b := fun e => h e.symm
        simp [read_cons, h, h']
  | cons x m ih =>
    obtain ⟨k, w⟩ := x
    have hp := List.pairwise_cons.1 hm.1
    have hm' : Memory.wf m := ⟨hp.2, fun c hc => hm.2 c (by simp [hc])⟩
    have hcell : ∀ n : Memory, (b ≠ a ∨ n.read a = unlisted) →
        Memory.read (cell a v ++ n) b = if b = a then v else n.read b := by
      intro n hn
      unfold cell
      split
      · by_cases h : b = a
        · subst h
          rcases hn with hn | hn
          · exact absurd rfl hn
          · simp_all
        · simp [h]
      · by_cases h : b = a
        · simp [read_cons, h]
        · have h' : ¬a = b := fun e => h e.symm
          simp [read_cons, h, h']
    unfold write
    split
    · rename_i hlt
      refine hcell _ (.inr (read_of_not_listed ?_))
      intro c hc
      rcases List.mem_cons.1 hc with rfl | hc
      · show k ≠ a
        omega
      · have := hp.1 c hc
        have hk : (k, w).1 = k := rfl
        omega
    · split
      · rename_i heq
        subst heq
        rw [hcell m (.inr (read_of_not_listed fun c hc => by
          have : a < c.1 := hp.1 c hc
          omega))]
        by_cases h : b = a
        · simp [h]
        · have h' : ¬a = b := fun e => h e.symm
          simp [read_cons, h, h']
      · rw [read_cons, read_cons, ih hm']
        by_cases h : b = a
        · have hk : ¬k = b := by omega
          simp [h, show ¬k = a by omega]
        · simp [h]

/-- Two buffers in canonical form that read alike are equal. -/
theorem ext_of_wf {m n : Memory} (hm : m.wf) (hn : n.wf) (h : ∀ a, m.read a = n.read a) : m = n := by
  have mem_iff : ∀ {p : Memory}, p.wf → ∀ c : Host.Cell, c ∈ p ↔ p.read c.1 = c.2 ∧ c.2 ≠ unlisted := by
    intro p hp c
    constructor
    · exact fun hc => ⟨read_of_mem hp hc, hp.2 c hc⟩
    · rintro ⟨hr, hu⟩
      by_contra hc
      apply hu
      rw [← hr]
      by_cases hl : ∃ b, (c.1, b) ∈ p
      · obtain ⟨b, hb⟩ := hl
        have hbc : b = c.2 := by rw [← read_of_mem hp hb, hr]
        subst hbc
        exact absurd hb hc
      · exact read_of_not_listed fun d hd e => hl ⟨d.2, by rw [← e]; exact hd⟩
  refine List.Perm.eq_of_pairwise (le := fun a b : Host.Cell => a.1 < b.1) ?_ hm.1 hn.1 ?_
  · intro a b _ _ hab hba
    omega
  · refine (List.perm_ext_iff_of_nodup ?_ ?_).2 fun c => ?_
    · exact hm.1.imp fun hab e => by subst e; omega
    · exact hn.1.imp fun hab e => by subst e; omega
    · rw [mem_iff hm, mem_iff hn, h]

end Memory

/-- The buffer at reset is in canonical form. -/
theorem reset_pixels_wf : State.reset.pixels.wf := by decide

end Sys2Proof.Machine
end

