-- ==== Sys2Proof/Laws/State.lean ====
section
/-! SUPPORT. One lemma per field for every update of the state, true by rfl, so that no proof unfolds a record update. -/

namespace Sys2Proof.Machine

/-! ## A response -/

@[simp] theorem State.respond_constructed (s : State) (st : BitVec 4) (d : BitVec 16) : (s.respond st d).constructed = s.constructed := rfl
@[simp] theorem State.respond_width (s : State) (st : BitVec 4) (d : BitVec 16) : (s.respond st d).width = s.width := rfl
@[simp] theorem State.respond_height (s : State) (st : BitVec 4) (d : BitVec 16) : (s.respond st d).height = s.height := rfl
@[simp] theorem State.respond_pageCount (s : State) (st : BitVec 4) (d : BitVec 16) : (s.respond st d).pageCount = s.pageCount := rfl
@[simp] theorem State.respond_bufLen (s : State) (st : BitVec 4) (d : BitVec 16) : (s.respond st d).bufLen = s.bufLen := rfl
@[simp] theorem State.respond_pixels (s : State) (st : BitVec 4) (d : BitVec 16) : (s.respond st d).pixels = s.pixels := rfl
@[simp] theorem State.respond_parser (s : State) (st : BitVec 4) (d : BitVec 16) : (s.respond st d).parser = s.parser := rfl
@[simp] theorem State.respond_config (s : State) (st : BitVec 4) (d : BitVec 16) : (s.respond st d).config = s.config := rfl
@[simp] theorem State.respond_cmdIn (s : State) (st : BitVec 4) (d : BitVec 16) : (s.respond st d).cmdIn = s.cmdIn := rfl
@[simp] theorem State.respond_rspOut (s : State) (st : BitVec 4) (d : BitVec 16) : (s.respond st d).rspOut = s.rspOut ++ [responseWord st d] := rfl

theorem State.respond_eq_answered (s : State) (st : BitVec 4) (d : BitVec 16) :
    s.respond st d = s.answered (responseWord st d) := rfl

@[simp] theorem State.answered_constructed (s : State) (r : Word) : (s.answered r).constructed = s.constructed := rfl
@[simp] theorem State.answered_width (s : State) (r : Word) : (s.answered r).width = s.width := rfl
@[simp] theorem State.answered_height (s : State) (r : Word) : (s.answered r).height = s.height := rfl
@[simp] theorem State.answered_pageCount (s : State) (r : Word) : (s.answered r).pageCount = s.pageCount := rfl
@[simp] theorem State.answered_bufLen (s : State) (r : Word) : (s.answered r).bufLen = s.bufLen := rfl
@[simp] theorem State.answered_pixels (s : State) (r : Word) : (s.answered r).pixels = s.pixels := rfl
@[simp] theorem State.answered_parser (s : State) (r : Word) : (s.answered r).parser = s.parser := rfl
@[simp] theorem State.answered_config (s : State) (r : Word) : (s.answered r).config = s.config := rfl
@[simp] theorem State.answered_cmdIn (s : State) (r : Word) : (s.answered r).cmdIn = s.cmdIn := rfl
@[simp] theorem State.answered_rspOut (s : State) (r : Word) : (s.answered r).rspOut = s.rspOut ++ [r] := rfl

/-! ## The whole-range writes -/

@[simp] theorem State.clearPixels_constructed (s : State) : (s.clearPixels).constructed = s.constructed := rfl
@[simp] theorem State.clearPixels_width (s : State) : (s.clearPixels).width = s.width := rfl
@[simp] theorem State.clearPixels_height (s : State) : (s.clearPixels).height = s.height := rfl
@[simp] theorem State.clearPixels_pageCount (s : State) : (s.clearPixels).pageCount = s.pageCount := rfl
@[simp] theorem State.clearPixels_bufLen (s : State) : (s.clearPixels).bufLen = s.bufLen := rfl
@[simp] theorem State.clearPixels_pixels (s : State) : (s.clearPixels).pixels = s.pixels.fill 0 s.bufLen.toNat fun _ => 0#8 := rfl
@[simp] theorem State.clearPixels_parser (s : State) : (s.clearPixels).parser = s.parser := rfl
@[simp] theorem State.clearPixels_config (s : State) : (s.clearPixels).config = s.config := rfl
@[simp] theorem State.clearPixels_cmdIn (s : State) : (s.clearPixels).cmdIn = s.cmdIn := rfl
@[simp] theorem State.clearPixels_rspOut (s : State) : (s.clearPixels).rspOut = s.rspOut := rfl

@[simp] theorem State.scroll_constructed (s : State) : (s.scroll).constructed = s.constructed := rfl
@[simp] theorem State.scroll_width (s : State) : (s.scroll).width = s.width := rfl
@[simp] theorem State.scroll_height (s : State) : (s.scroll).height = s.height := rfl
@[simp] theorem State.scroll_pageCount (s : State) : (s.scroll).pageCount = s.pageCount := rfl
@[simp] theorem State.scroll_bufLen (s : State) : (s.scroll).bufLen = s.bufLen := rfl
@[simp] theorem State.scroll_pixels (s : State) : (s.scroll).pixels = s.pixels.fill 0 s.bottomBase fun i => s.pixels.read (i + s.width.toNat) := rfl
@[simp] theorem State.scroll_parser (s : State) : (s.scroll).parser = s.parser := rfl
@[simp] theorem State.scroll_config (s : State) : (s.scroll).config = s.config := rfl
@[simp] theorem State.scroll_cmdIn (s : State) : (s.scroll).cmdIn = s.cmdIn := rfl
@[simp] theorem State.scroll_rspOut (s : State) : (s.scroll).rspOut = s.rspOut := rfl

@[simp] theorem State.clearBottom_constructed (s : State) : (s.clearBottom).constructed = s.constructed := rfl
@[simp] theorem State.clearBottom_width (s : State) : (s.clearBottom).width = s.width := rfl
@[simp] theorem State.clearBottom_height (s : State) : (s.clearBottom).height = s.height := rfl
@[simp] theorem State.clearBottom_pageCount (s : State) : (s.clearBottom).pageCount = s.pageCount := rfl
@[simp] theorem State.clearBottom_bufLen (s : State) : (s.clearBottom).bufLen = s.bufLen := rfl
@[simp] theorem State.clearBottom_pixels (s : State) : (s.clearBottom).pixels = s.pixels.fill s.bottomBase s.width.toNat fun _ => 0#8 := rfl
@[simp] theorem State.clearBottom_parser (s : State) : (s.clearBottom).parser = s.parser := rfl
@[simp] theorem State.clearBottom_config (s : State) : (s.clearBottom).config = s.config := rfl
@[simp] theorem State.clearBottom_cmdIn (s : State) : (s.clearBottom).cmdIn = s.cmdIn := rfl
@[simp] theorem State.clearBottom_rspOut (s : State) : (s.clearBottom).rspOut = s.rspOut := rfl

/-! ## Reset -/

@[simp] theorem State.takeReset_constructed (s : State) : (s.takeReset).constructed = false := rfl
@[simp] theorem State.takeReset_width (s : State) : (s.takeReset).width = 0 := rfl
@[simp] theorem State.takeReset_height (s : State) : (s.takeReset).height = 0 := rfl
@[simp] theorem State.takeReset_pageCount (s : State) : (s.takeReset).pageCount = 0 := rfl
@[simp] theorem State.takeReset_bufLen (s : State) : (s.takeReset).bufLen = 0 := rfl
@[simp] theorem State.takeReset_pixels (s : State) : (s.takeReset).pixels = [] := rfl
@[simp] theorem State.takeReset_parser (s : State) : (s.takeReset).parser = .idle := rfl
@[simp] theorem State.takeReset_config (s : State) : (s.takeReset).config = s.config := rfl
@[simp] theorem State.takeReset_cmdIn (s : State) : (s.takeReset).cmdIn = s.cmdIn := rfl
@[simp] theorem State.takeReset_rspOut (s : State) : (s.takeReset).rspOut = s.rspOut := rfl

end Sys2Proof.Machine
end

