-- ==== Sys2Proof/Laws/Ops.lean ====
section
/-! SUPPORT. One lemma per shared operation that says everything it can do; the provers cite these and do not unfold the
operations. -/

namespace Sys2Proof.Machine

/-! ## Answers -/

@[simp] theorem State.complete_eq (s : State) (d : BitVec 16) :
    s.complete d = .next (s.answered (responseWord statusOk d)) := rfl

@[simp] theorem State.raise_eq (s : State) (e : CommandError) :
    s.raise e = .next (s.answered (responseWord e.code 0)) := rfl

theorem State.whenConstructed_of_constructed {s : State} (h : s.constructed = true) (r : Result) :
    s.whenConstructed r = r := by simp [State.whenConstructed, h]

theorem State.whenConstructed_of_not {s : State} (h : s.constructed = false) (r : Result) :
    s.whenConstructed r = .next (s.answered (responseWord 0x4#4 0)) := by
  simp [State.whenConstructed, h, CommandError.code]

/-- `whenConstructed` runs its argument, or answers `NotConstructed`. -/
theorem State.whenConstructed_cases (s : State) (r : Result) :
    (s.constructed = true ∧ s.whenConstructed r = r) ∨
    (s.constructed = false ∧ s.whenConstructed r = .next (s.answered (responseWord 0x4#4 0))) := by
  cases h : s.constructed
  · exact .inr ⟨rfl, s.whenConstructed_of_not h r⟩
  · exact .inl ⟨rfl, s.whenConstructed_of_constructed h r⟩

/-- The bits of a response word, by the layout of rule R96. -/
theorem responseWord_getLsbD (st : BitVec 4) (d : BitVec 16) (i : Nat) :
    (responseWord st d).getLsbD i =
      if i < 16 then d.getLsbD i else if i < 28 then false else st.getLsbD (i - 28) := by
  simp only [responseWord, BitVec.getLsbD_append, BitVec.getLsbD_zero]
  split <;> rename_i h1
  · rfl
  · split <;> rename_i h2
    · rw [if_pos (by omega)]
    · rw [if_neg (by omega), show i - 16 - 12 = i - 28 by omega]

theorem statusOf_responseWord (st : BitVec 4) (d : BitVec 16) : statusOf (responseWord st d) = st := by
  apply BitVec.eq_of_getLsbD_eq
  intro i hi
  rw [statusOf, BitVec.getLsbD_extractLsb', responseWord_getLsbD, if_neg (by omega), if_neg (by omega),
    show 28 + i - 28 = i by omega]
  simp [hi]

theorem dataOf_responseWord (st : BitVec 4) (d : BitVec 16) : dataOf (responseWord st d) = d := by
  apply BitVec.eq_of_getLsbD_eq
  intro i hi
  rw [dataOf, BitVec.getLsbD_extractLsb', responseWord_getLsbD, if_pos (by omega)]
  simp [hi]

/-! ## One byte -/

/-- `modifyByte` inside the buffer writes the byte and answers OK. -/
theorem State.modifyByte_of_lt {s : State} {i : Nat} (h : i < s.bufLen.toNat) (f : Byte → Byte) :
    s.modifyByte i f =
      .next (State.answered { s with pixels := s.pixels.write i (f (s.pixels.read i)) } (responseWord statusOk 0)) := by
  simp [State.modifyByte, h]

/-- If `modifyByte` answers a next state, the byte was inside the buffer. -/
theorem State.modifyByte_next {s t : State} {i : Nat} {f : Byte → Byte} (h : s.modifyByte i f = .next t) :
    i < s.bufLen.toNat ∧
      t = State.answered { s with pixels := s.pixels.write i (f (s.pixels.read i)) } (responseWord statusOk 0) := by
  unfold State.modifyByte at h
  split at h
  · rename_i hi
    exact ⟨hi, by simpa using h.symm⟩
  · simp at h

/-! ## The blit -/

/-- One column of the blit changes `PIXELS` alone. -/
theorem State.blitColumn_frame (s : State) (col : Nat) (v : Byte) :
    s.blitColumn col v = { s with pixels := (s.blitColumn col v).pixels } := by
  unfold State.blitColumn
  split <;> rfl

/-- One column of the blit: a byte of the target page, when the column exists (rule R166). -/
theorem State.blitColumn_read {s : State} (hs : s.pixels.wf) (col : Nat) (v : Byte) (a : Nat) :
    (s.blitColumn col v).pixels.read a =
      if col < s.width.toNat ∧ a = s.bottomBase + col then v else s.pixels.read a := by
  unfold State.blitColumn
  split
  · rename_i h
    simp [Memory.read_write hs, h]
  · rename_i h
    simp [h]

theorem State.blitColumn_wf {s : State} (hs : s.pixels.wf) (col : Nat) (v : Byte) : (s.blitColumn col v).pixels.wf := by
  unfold State.blitColumn
  split
  · exact Memory.wf_write hs _ _
  · exact hs

/-- The columns `[0, n)` of one character. -/
def State.blitColumns (s : State) (i : Nat) (c : Byte) (n : Nat) : State :=
  (List.range n).foldl (fun u j => u.blitColumn (glyphWidth * i + j) (gbyte u.config c j)) s

theorem State.blitColumns_succ (s : State) (i : Nat) (c : Byte) (n : Nat) :
    s.blitColumns i c (n + 1) =
      (s.blitColumns i c n).blitColumn (glyphWidth * i + n) (gbyte (s.blitColumns i c n).config c n) := by
  simp [State.blitColumns, List.range_succ]

theorem State.blitColumns_frame (s : State) (i : Nat) (c : Byte) (n : Nat) :
    s.blitColumns i c n = { s with pixels := (s.blitColumns i c n).pixels } := by
  induction n with
  | zero => rfl
  | succ n ih =>
    rw [State.blitColumns_succ, State.blitColumn_frame]
    generalize ((s.blitColumns i c n).blitColumn _ _).pixels = p
    rw [ih]

theorem State.blitColumns_wf {s : State} (hs : s.pixels.wf) (i : Nat) (c : Byte) (n : Nat) :
    (s.blitColumns i c n).pixels.wf := by
  induction n with
  | zero => exact hs
  | succ n ih =>
    rw [State.blitColumns_succ]
    exact State.blitColumn_wf ih _ _

theorem State.blitColumns_read {s : State} (hs : s.pixels.wf) (i : Nat) (c : Byte) (n a : Nat) :
    (s.blitColumns i c n).pixels.read a =
      if s.bottomBase + glyphWidth * i ≤ a ∧ a < s.bottomBase + glyphWidth * i + n ∧ a < s.bottomBase + s.width.toNat then
        gbyte s.config c (a - s.bottomBase - glyphWidth * i)
      else s.pixels.read a := by
  induction n with
  | zero =>
    rw [if_neg (by omega)]
    rfl
  | succ n ih =>
    have hf := s.blitColumns_frame i c n
    rw [State.blitColumns_succ, State.blitColumn_read (State.blitColumns_wf hs i c n), ih]
    have hw : (s.blitColumns i c n).width = s.width := by rw [hf]
    have hb : (s.blitColumns i c n).bottomBase = s.bottomBase := by rw [hf]
    have hc : (s.blitColumns i c n).config = s.config := by rw [hf]
    rw [hw, hb, hc]
    by_cases h : glyphWidth * i + n < s.width.toNat ∧ a = s.bottomBase + (glyphWidth * i + n)
    · rw [if_pos h, if_pos (by omega), show a - s.bottomBase - glyphWidth * i = n by omega]
    · rw [if_neg h]
      by_cases h2 : s.bottomBase + glyphWidth * i ≤ a ∧ a < s.bottomBase + glyphWidth * i + n ∧
          a < s.bottomBase + s.width.toNat
      · rw [if_pos h2, if_pos (by omega)]
      · rw [if_neg h2, if_neg (by omega)]

theorem State.blitChar_eq (s : State) (i : Nat) (c : Byte) : s.blitChar i c = s.blitColumns i c glyphWidth := rfl

/-- The blit changes `PIXELS` alone. -/
theorem State.blit_frame (s : State) (i : Nat) (t : List Byte) :
    s.blit i t = { s with pixels := (s.blit i t).pixels } := by
  induction t generalizing s i with
  | nil => rfl
  | cons c t ih =>
    show (s.blitChar i c).blit (i + 1) t = _
    rw [ih]
    show _ = { s with pixels := ((s.blitChar i c).blit (i + 1) t).pixels }
    generalize ((s.blitChar i c).blit (i + 1) t).pixels = p
    rw [State.blitChar_eq, State.blitColumns_frame]

theorem State.blit_wf {s : State} (hs : s.pixels.wf) (i : Nat) (t : List Byte) : (s.blit i t).pixels.wf := by
  induction t generalizing s i with
  | nil => exact hs
  | cons c t ih => exact ih (s := s.blitChar i c) (State.blitColumns_wf hs i c glyphWidth) (i + 1)

/-- The whole blit: column `col = a - base` of the target page, for a column the rendered characters reach, is the column
`col % 5` of the glyph of character `col / 5`; every other byte stays (rule R166). -/
theorem State.blit_read {s : State} (hs : s.pixels.wf) (i : Nat) (t : List Byte) (a : Nat) :
    (s.blit i t).pixels.read a =
      if s.bottomBase + 5 * i ≤ a ∧ a < s.bottomBase + 5 * (i + t.length) ∧ a < s.bottomBase + s.width.toNat then
        gbyte s.config (t.getD ((a - s.bottomBase) / 5 - i) 0#8) ((a - s.bottomBase) % 5)
      else s.pixels.read a := by
  induction t generalizing s i with
  | nil =>
    rw [if_neg (by simp only [List.length_nil]; omega)]
    rfl
  | cons c t ih =>
    show ((s.blitChar i c).blit (i + 1) t).pixels.read a = _
    have hf := s.blitColumns_frame i c glyphWidth
    rw [← State.blitChar_eq] at hf
    have hw : (s.blitChar i c).width = s.width := by rw [hf]
    have hb : (s.blitChar i c).bottomBase = s.bottomBase := by rw [hf]
    have hc : (s.blitChar i c).config = s.config := by rw [hf]
    rw [ih (s := s.blitChar i c) (State.blitColumns_wf hs i c glyphWidth) (i + 1), hw, hb, hc, State.blitChar_eq,
      State.blitColumns_read hs]
    simp only [glyphWidth, List.length_cons]
    by_cases h : s.bottomBase + 5 * (i + 1) ≤ a ∧ a < s.bottomBase + 5 * (i + 1 + t.length) ∧
        a < s.bottomBase + s.width.toNat
    · rw [if_pos h, if_pos (by omega), show (a - s.bottomBase) / 5 - i = ((a - s.bottomBase) / 5 - (i + 1)) + 1 by omega,
        List.getD_cons_succ]
    · rw [if_neg h]
      by_cases h2 : s.bottomBase + 5 * i ≤ a ∧ a < s.bottomBase + 5 * i + 5 ∧ a < s.bottomBase + s.width.toNat
      · rw [if_pos h2, if_pos (by omega), show (a - s.bottomBase) / 5 - i = 0 by omega,
          show a - s.bottomBase - 5 * i = (a - s.bottomBase) % 5 by omega, List.getD_cons_zero]
      · rw [if_neg h2, if_neg (by omega)]

/-! ## The effect of a PRINT -/

/-- The effect of a PRINT changes `PIXELS` alone. -/
theorem State.printLine_frame (s : State) (t : List Byte) :
    s.printLine t = { s with pixels := (s.printLine t).pixels } := by
  unfold State.printLine
  rw [State.blit_frame]
  rfl

theorem State.printLine_wf {s : State} (hs : s.pixels.wf) (t : List Byte) : (s.printLine t).pixels.wf :=
  State.blit_wf (Memory.wf_fill (Memory.wf_fill hs _ _ _) _ _ _) 0 t

/-- The buffer after the effect of a PRINT of `t` (already cut to its rendered characters): the target page holds the
glyphs and zeros, and every byte before it is the byte one page further on (rules R164 to R166). -/
theorem State.printLine_read {s : State} (hs : s.pixels.wf) (t : List Byte) (a : Nat) :
    (s.printLine t).pixels.read a =
      if s.bottomBase ≤ a ∧ a < s.bottomBase + s.width.toNat then
        if a - s.bottomBase < 5 * t.length then gbyte s.config (t.getD ((a - s.bottomBase) / 5) 0#8) ((a - s.bottomBase) % 5)
        else 0#8
      else if a < s.bottomBase then s.pixels.read (a + s.width.toNat)
      else s.pixels.read a := by
  have hb1 : s.scroll.bottomBase = s.bottomBase := rfl
  have hb2 : s.scroll.clearBottom.bottomBase = s.bottomBase := rfl
  unfold State.printLine
  rw [State.blit_read (Memory.wf_fill (Memory.wf_fill hs _ _ _) _ _ _), hb2]
  simp only [State.clearBottom_pixels, State.scroll_pixels, State.clearBottom_width, State.scroll_width,
    State.clearBottom_config, State.scroll_config, Memory.read_fill, hb1, Nat.mul_zero, Nat.add_zero, Nat.zero_add,
    Nat.sub_zero]
  by_cases h1 : s.bottomBase ≤ a ∧ a < s.bottomBase + s.width.toNat
  · simp only [if_pos h1]
    by_cases h2 : a - s.bottomBase < 5 * t.length
    · rw [if_pos (by omega), if_pos h2]
    · rw [if_neg (by omega), if_neg h2]
  · simp only [if_neg h1]
    rw [if_neg (by omega)]
    by_cases h3 : a < s.bottomBase
    · rw [if_pos (by omega), if_pos h3]
    · rw [if_neg (by omega), if_neg h3]

end Sys2Proof.Machine
end

