-- ==== Sys2Proof/Laws/Exec.lean ====
section
/-! SUPPORT. What executing a command can do, said once (`exec_cases`, from which frames and invariants follow), and the
facts about operands that hold in every state of the invariant. -/

namespace Sys2Proof.Machine

/-! ## Operands -/

theorem pageCountOf_eq (h : Nat) (hh : 1 ≤ h) : pageCountOf h = (h + 7) / 8 := by
  simp only [pageCountOf, pageRows]
  split <;> omega

theorem State.inRange_iff (s : State) (x y : Byte) :
    s.inRange x y = true ↔ x.toNat < s.width.toNat ∧ y.toNat < s.height.toNat := by
  simp [State.inRange]

/-- The bits of a row's mask (rule R121). -/
theorem bitOf_getLsbD (y : Byte) (b : Nat) : (bitOf y).getLsbD b = decide (b = y.toNat % 8) := by
  have hlt : y.toNat % 8 < 8 := Nat.mod_lt _ (by omega)
  show (1#8 <<< (y.toNat % 8)).getLsbD b = _
  generalize y.toNat % 8 = n at hlt ⊢
  rw [BitVec.getLsbD_shiftLeft]
  by_cases h : b = n
  · subst h
    simp
    omega
  · by_cases h2 : b < n
    · simp [h, h2]
    · have : b - n ≠ 0 := by omega
      simp [h, this]

theorem State.width_le_bufLen {s : State} (hs : s.Inv) : s.width.toNat ≤ s.bufLen.toNat := by
  cases hc : s.constructed with
  | false =>
    rw [(hs.geometry.1 hc).1]
    simp
  | true =>
    have hg := hs.geometry.2 hc
    rw [hg.2.2.2]
    exact Nat.le_mul_of_pos_right _ (by omega)

/-- An in-range coordinate exists only in a constructed buffer, and its byte lies in it (rules R123, R124). -/
theorem State.indexOf_lt_of_inRange {s : State} (hs : s.Inv) {x y : Byte} (h : s.inRange x y = true) :
    s.constructed = true ∧ s.indexOf x y < s.bufLen.toNat := by
  have h' := (s.inRange_iff x y).1 h
  have hc : s.constructed = true := by
    cases hc : s.constructed with
    | true => rfl
    | false =>
      rw [(hs.geometry.1 hc).1] at h'
      simp at h'
  have hg := hs.geometry.2 hc
  refine ⟨hc, ?_⟩
  rw [hg.2.2.2, State.indexOf]
  have hp : y.toNat / 8 + 1 ≤ s.pageCount.toNat := by omega
  calc x.toNat + y.toNat / 8 * s.width.toNat < s.width.toNat + y.toNat / 8 * s.width.toNat := by omega
    _ = s.width.toNat * (y.toNat / 8 + 1) := by ring
    _ ≤ _ := Nat.mul_le_mul_left _ hp

/-! ## The commands -/

/-- The state a successful CONSTRUCT leaves, before its response (rule R130). -/
def State.newSession (s : State) (w h : Byte) : State :=
  { s with
    constructed := true
    width := w
    height := h
    pageCount := BitVec.ofNat 6 (pageCountOf h.toNat)
    bufLen := BitVec.ofNat 13 (bufferLength w.toNat h.toNat)
    pixels := [] }

/-- Everything a command can do: raise an error; make a new session; write pixels; or answer a read. -/
theorem exec_cases {i : Instr} {s t : State} (h : exec i s = .next t) :
    (∃ e : CommandError, t = s.answered (responseWord e.code 0)) ∨
    (∃ a b, i = .construct a b ∧ a ≠ 0#8 ∧ b ≠ 0#8 ∧ t = (s.newSession a b).answered (responseWord statusOk 0)) ∨
    (s.constructed = true ∧ ∃ p, t = State.answered { s with pixels := p } (responseWord statusOk 0) ∧
      ((i = .clear ∧ p = s.clearPixels.pixels) ∨
       (∃ x y, i = .pset x y ∧ s.inRange x y = true ∧ s.indexOf x y < s.bufLen.toNat ∧
          p = s.pixels.write (s.indexOf x y) (s.pixels.read (s.indexOf x y) ||| bitOf y)) ∨
       (∃ x y, i = .pclr x y ∧ s.inRange x y = true ∧ s.indexOf x y < s.bufLen.toNat ∧
          p = s.pixels.write (s.indexOf x y) (s.pixels.read (s.indexOf x y) &&& ~~~bitOf y)) ∨
       (∃ text, i = .print text ∧ s.width.toNat ≤ s.bufLen.toNat ∧
          p = (s.printLine (text.take (renderCount text))).pixels))) ∨
    (s.constructed = true ∧
      ((∃ k, i = .rdbyte k ∧ k.toNat < s.bufLen.toNat ∧
          t = s.answered (responseWord statusOk ((s.pixels.read k.toNat).setWidth 16))) ∨
       (i = .rdlen ∧ t = s.answered (responseWord statusOk (s.bufLen.setWidth 16))))) := by
  have nc : ∀ {r : Result}, s.whenConstructed r = .next t →
      (s.constructed = true ∧ r = .next t) ∨ t = s.answered (responseWord CommandError.notConstructed.code 0) := by
    intro r h
    rcases s.whenConstructed_cases r with ⟨hc, e⟩ | ⟨hc, e⟩ <;> rw [e] at h
    · exact .inl ⟨hc, h⟩
    · injection h with h
      exact .inr h.symm
  have rs : ∀ {e : CommandError}, s.raise e = .next t → t = s.answered (responseWord e.code 0) := by
    intro e h
    rw [State.raise_eq] at h
    injection h with h
    exact h.symm
  cases i with
  | construct a b =>
    simp only [exec, execConstruct] at h
    split at h
    · exact .inl ⟨_, rs h⟩
    · rename_i hz
      rw [State.complete_eq] at h
      injection h with h
      exact .inr (.inl ⟨a, b, rfl, fun e => hz (.inl e), fun e => hz (.inr e), h.symm⟩)
  | clear =>
    rcases nc h with ⟨hc, h⟩ | h
    · rw [State.complete_eq] at h
      injection h with h
      exact .inr (.inr (.inl ⟨hc, _, h.symm, .inl ⟨rfl, rfl⟩⟩))
    · exact .inl ⟨_, h⟩
  | pset x y =>
    rcases nc h with ⟨hc, h⟩ | h
    · split at h
      · rename_i hr
        obtain ⟨h1, h2⟩ := State.modifyByte_next h
        exact .inr (.inr (.inl ⟨hc, _, h2, .inr (.inl ⟨x, y, rfl, hr, h1, rfl⟩)⟩))
      · exact .inl ⟨_, rs h⟩
    · exact .inl ⟨_, h⟩
  | pclr x y =>
    rcases nc h with ⟨hc, h⟩ | h
    · split at h
      · rename_i hr
        obtain ⟨h1, h2⟩ := State.modifyByte_next h
        exact .inr (.inr (.inl ⟨hc, _, h2, .inr (.inr (.inl ⟨x, y, rfl, hr, h1, rfl⟩))⟩))
      · exact .inl ⟨_, rs h⟩
    · exact .inl ⟨_, h⟩
  | print text =>
    rcases nc h with ⟨hc, h⟩ | h
    · split at h
      · exact .inl ⟨_, rs h⟩
      split at h
      · exact .inl ⟨_, rs h⟩
      split at h
      · exact .inl ⟨_, rs h⟩
      split at h
      · cases h
      · rename_i hb
        rw [State.complete_eq, State.printLine_frame] at h
        injection h with h
        exact .inr (.inr (.inl ⟨hc, _, h.symm, .inr (.inr (.inr ⟨text, rfl, by omega, rfl⟩))⟩))
    · exact .inl ⟨_, h⟩
  | rdbyte k =>
    rcases nc h with ⟨hc, h⟩ | h
    · split at h
      · exact .inl ⟨_, rs h⟩
      · rename_i hr
        rw [State.complete_eq] at h
        injection h with h
        exact .inr (.inr (.inr ⟨hc, .inl ⟨k, rfl, by omega, h.symm⟩⟩))
    · exact .inl ⟨_, h⟩
  | rdlen =>
    rcases nc h with ⟨hc, h⟩ | h
    · rw [State.complete_eq] at h
      injection h with h
      exact .inr (.inr (.inr ⟨hc, .inr ⟨rfl, h.symm⟩⟩))
    · exact .inl ⟨_, h⟩

end Sys2Proof.Machine
end

