-- ==== Sys2Proof/Laws/Framing.lean ====
section
/-! SUPPORT. What a step can do, said once (`step_cases`), and what taking the words of a command one after another does
(`run_header`, `run_command`). -/

namespace Sys2Proof.Machine

theorem step_word {s : State} {w : Word} {rest : List Event} (h : s.cmdIn = .word w :: rest) :
    step s = receiveWord w { s with cmdIn := rest } := by
  simp [step, h, receive]

theorem run_succ {s t : State} {n : Nat} (h : step s = .next t) : run (n + 1) s = run n t := by
  simp [run, h]

theorem run_one (s : State) : run 1 s = step s := by
  simp only [run]
  cases step s <;> rfl

theorem run_add (m n : Nat) {s t : State} (h : run m s = .next t) : run (m + n) s = run n t := by
  induction m generalizing s with
  | zero =>
    simp only [run] at h
    injection h with h
    subst h
    simp
  | succ m ih =>
    rw [show m + 1 + n = (m + n) + 1 by omega]
    simp only [run] at h ⊢
    cases hs : step s <;> rw [hs] at h <;> simp at h ⊢
    exact ih h

theorem core_run_next {M : Host.Core} {n : Nat} {s t : M.State} (h : M.step s = .next t) :
    M.run (n + 1) s = M.run n t := by
  simp [Host.Core.run, h]

theorem core_run_fault {M : Host.Core} {n : Nat} {s : M.State} {f : M.Fault} (h : M.step s = .fault f) :
    M.run (n + 1) s = .fault f := by
  simp [Host.Core.run, h]

theorem core_run_refused {M : Host.Core} {n : Nat} {s : M.State} {r : M.Refusal} (h : M.step s = .refused r) :
    M.run (n + 1) s = .refused r := by
  simp [Host.Core.run, h]

/-- The model's `run` is the host's run of `core`. -/
theorem run_eq_core_run (n : Nat) (s : State) : run n s = Sys2Proof.core.run n s := by
  induction n generalizing s with
  | zero => rfl
  | succ n ih =>
    cases h : step s with
    | next t =>
      rw [run_succ h, ih t]
      exact (core_run_next (M := Sys2Proof.core) h).symm
    | fault f =>
      rw [run, h]
      exact (core_run_fault (M := Sys2Proof.core) h).symm
    | refused r =>
      rw [run, h]
      exact (core_run_refused (M := Sys2Proof.core) h).symm

/-- Payload words that do not complete their PRINT only move the parser (rule R160). -/
theorem run_payload (ps : List Word) : ∀ (s : State) (hdr : Word) (r : Nat) (text : List Byte) (rest : List Event),
    s.parser = .payload hdr r text → ps.length < r → s.cmdIn = wordEvents ps ++ rest →
    run ps.length s =
      .next { s with
        cmdIn := rest
        parser := .payload hdr (r - ps.length) (text ++ ps.flatMap payloadBytes) } := by
  induction ps with
  | nil =>
    intro s hdr r text rest hp hl hc
    cases s
    simp_all [run, wordEvents]
  | cons p ps ih =>
    intro s hdr r text rest hp hl hc
    have hs : step s = .next { s with
        cmdIn := wordEvents ps ++ rest
        parser := .payload hdr (r - 1) (text ++ payloadBytes p) } := by
      rw [step_word (by simpa [wordEvents] using hc)]
      simp only [List.length_cons] at hl
      simp only [receiveWord, hp]
      rw [if_neg (by omega)]
      rfl
    rw [List.length_cons, run_succ hs,
      ih _ hdr (r - 1) (text ++ payloadBytes p) rest rfl (by simp only [List.length_cons] at hl; omega) rfl]
    simp [Nat.sub_sub, Nat.add_comm]

/-- A PRINT header and some of its payload words, not all, only move the parser (rule R160). -/
theorem run_header {s : State} {hdr : Word} {ps : List Word} {rest : List Event} (hi : s.parser = .idle)
    (hl : ps.length < payloadWords hdr) (hc : s.cmdIn = wordEvents (hdr :: ps) ++ rest) :
    run (1 + ps.length) s =
      .next { s with
        cmdIn := rest
        parser := .payload hdr (payloadWords hdr - ps.length) (ps.flatMap payloadBytes) } := by
  have ho : opField hdr = 0x5#4 := by
    by_contra h
    simp [payloadWords, h] at hl
  have hs : step s = .next { s with
      cmdIn := wordEvents ps ++ rest
      parser := .payload hdr (payloadWords hdr) [] } := by
    rw [step_word (by simpa [wordEvents] using hc)]
    simp only [receiveWord, hi]
    rw [if_pos ho, if_neg (fun h0 => by simp [payloadWords, h0] at hl)]
    rfl
  rw [Nat.add_comm, run_succ hs, run_payload ps _ hdr _ [] rest rfl hl rfl]
  simp

/-- Taking all the words of a command executes it (rule R160). -/
theorem run_command {s : State} {w : Word} {ps : List Word} {rest : List Event} (h : s.AtCommand w ps rest) :
    run (1 + ps.length) s = execute w (payloadText w ps) { s with cmdIn := rest } := by
  obtain ⟨hi, hf, hc⟩ := h
  rcases List.eq_nil_or_concat ps with rfl | ⟨qs, q, rfl⟩
  · simp only [List.length_nil, Nat.add_zero, run_one]
    rw [step_word (by simpa [wordEvents] using hc)]
    simp only [receiveWord, hi, payloadText]
    simp only [List.length_nil] at hf
    split
    · rename_i ho
      rw [if_pos]
      · simp
      · simp [payloadWords, ho] at hf
        omega
    · simp
  · simp only [List.concat_eq_append, List.length_append, List.length_cons, List.length_nil] at hf ⊢
    have hp := run_header (rest := .word q :: rest) hi (by omega : qs.length < payloadWords w)
      (by rw [hc]; simp [wordEvents])
    rw [show 1 + (qs.length + (0 + 1)) = (1 + qs.length) + 1 by omega, run_add _ _ hp, run_one, step_word rfl]
    simp only [receiveWord]
    rw [if_pos (by omega)]
    have he : ({ s with parser := Parser.idle, cmdIn := rest } : State) = { s with cmdIn := rest } := by rw [← hi]
    simp only [he, payloadText, List.flatMap_append]
    simp

/-- Everything a step can do: take a reset; move the parser alone; or execute a command, one word long or with its last
payload word just taken. -/
theorem step_cases {s t : State} (h : step s = .next t) :
    (∃ rest, s.cmdIn = .reset :: rest ∧ t = State.takeReset { s with cmdIn := rest }) ∨
    (∃ w rest, s.cmdIn = .word w :: rest ∧
      ((s.parser = .idle ∧ opField w = 0x5#4 ∧ textLength w ≠ 0 ∧
          t = { s with cmdIn := rest, parser := .payload w (payloadWords w) [] }) ∨
       (∃ hdr r text, s.parser = .payload hdr r text ∧ r ≠ 1 ∧
          t = { s with cmdIn := rest, parser := .payload hdr (r - 1) (text ++ payloadBytes w) }) ∨
       (s.parser = .idle ∧ execute w [] { s with cmdIn := rest } = .next t) ∨
       (∃ hdr text, s.parser = .payload hdr 1 text ∧
          execute hdr ((text ++ payloadBytes w).take (textLength hdr)) { s with cmdIn := rest, parser := .idle } =
            .next t))) := by
  unfold step at h
  split at h
  · cases h
  · rename_i e rest hc
    cases e with
    | reset =>
      simp only [receive] at h
      injection h with h
      exact .inl ⟨rest, hc, h.symm⟩
    | word w =>
      simp only [receive, receiveWord] at h
      refine .inr ⟨w, rest, hc, ?_⟩
      split at h
      · rename_i hp
        split at h
        · rename_i ho
          split at h
          · exact .inr (.inr (.inl ⟨hp, h⟩))
          · rename_i hn
            injection h with h
            exact .inl ⟨hp, ho, hn, h.symm⟩
        · exact .inr (.inr (.inl ⟨hp, h⟩))
      · rename_i hdr r text hp
        split at h
        · rename_i hr
          subst hr
          exact .inr (.inr (.inr ⟨hdr, text, hp, h⟩))
        · rename_i hr
          injection h with h
          exact .inr (.inl ⟨hdr, r, text, hp, hr, h.symm⟩)

end Sys2Proof.Machine
end

