-- ==== Sys2Proof/Laws/PerInstr.lean ====
section
/-! SUPPORT. Facts about every command, one lemma per constructor. `EncodedLength`: a well-formed command's words are as
many as its first word announces (rule R95). -/

namespace Sys2Proof.Laws.EncodedLength

/-- The words of a well-formed command are `1 + payloadWords` of its first word. -/
def Statement (i : Instr) : Prop := i.WellFormed → (encode i).length = 1 + payloadWords (header i)

theorem construct (w h : Byte) : Statement (.construct w h) := by
  intro _
  have : opField (header (.construct w h)) = 0b0001#4 := by
    rw [opField, extractLsb'_eq_iff]
    intro i hi
    simp only [header, BitVec.getLsbD_append]
    rw [if_neg (by omega), if_neg (by omega), if_neg (by omega), show 28 + i - 8 - 8 - 12 = i by omega]
  simp [encode, payload, payloadWords, this]

theorem clear : Statement .clear := by
  intro _
  decide

theorem pset (x y : Byte) : Statement (.pset x y) := by
  intro _
  have : opField (header (.pset x y)) = 0b0011#4 := by
    rw [opField, extractLsb'_eq_iff]
    intro i hi
    simp only [header, BitVec.getLsbD_append]
    rw [if_neg (by omega), if_neg (by omega), if_neg (by omega), show 28 + i - 8 - 8 - 12 = i by omega]
  simp [encode, payload, payloadWords, this]

theorem pclr (x y : Byte) : Statement (.pclr x y) := by
  intro _
  have : opField (header (.pclr x y)) = 0b0100#4 := by
    rw [opField, extractLsb'_eq_iff]
    intro i hi
    simp only [header, BitVec.getLsbD_append]
    rw [if_neg (by omega), if_neg (by omega), if_neg (by omega), show 28 + i - 8 - 8 - 12 = i by omega]
  simp [encode, payload, payloadWords, this]

theorem print (text : List Byte) : Statement (.print text) := by
  intro h
  have hlen : text.length ≤ 255 := by simpa [Instr.WellFormed, Instr.wellFormed] using h
  have hop : opField (header (.print text)) = 0b0101#4 := by
    rw [opField, extractLsb'_eq_iff]
    intro i hi
    simp only [header, BitVec.getLsbD_append]
    rw [if_neg (by omega), if_neg (by omega), show 28 + i - 8 - 20 = i by omega]
  have hlow : lowField (header (.print text)) = BitVec.ofNat 8 text.length := by
    rw [lowField, extractLsb'_eq_iff]
    intro i hi
    simp only [header, BitVec.getLsbD_append]
    rw [if_pos (by omega), Nat.zero_add]
  have hN : textLength (header (.print text)) = text.length := by
    rw [textLength, hlow, BitVec.toNat_ofNat, Nat.mod_eq_of_lt (by omega)]
  simp only [encode, payload, List.length_cons, packPayload_length, payloadWords, hop, hN, if_pos]
  omega

theorem rdbyte (index : BitVec 13) : Statement (.rdbyte index) := by
  intro _
  have : opField (header (.rdbyte index)) = 0b0110#4 := by
    rw [opField, extractLsb'_eq_iff]
    intro i hi
    simp only [header, BitVec.getLsbD_append]
    rw [if_neg (by omega), if_neg (by omega), if_neg (by omega), show 28 + i - 13 - 3 - 12 = i by omega]
  simp [encode, payload, payloadWords, this]

theorem rdlen : Statement .rdlen := by
  intro _
  decide

end Sys2Proof.Laws.EncodedLength
end

