-- ==== Sys2Proof/Tests/Slice0.lean ====
section
/-! SUPPORT. Tests, their expected results from spec/95_test_vectors.md and the worked examples of the rules; and for every
obligation with hypotheses a theorem `witness_<Name>` that shows a state and operands meeting all of them together, for
each of its clauses. Obligations without hypotheses have no witness. -/

namespace Sys2Proof.Tests

open Sys2Proof.Machine

/-! ## Helpers -/

/-- A glyph of the test font TF: column `k` of code `c` is `c + k` (95_test_vectors.md). -/
def tfGlyph (c : Byte) : Glyph := { c0 := c, c1 := c + 1, c2 := c + 2, c3 := c + 3, c4 := c + 4 }

/-- The part of font TF that the tests print. -/
def tfTable : GlyphTable := [0x41, 0x42, 0x43, 0x44, 0x45].map fun c => (c, tfGlyph c)

/-- Font TF under the specification's choice of policies. -/
def tfConfig : Config := { Config.standard with glyphTable := tfTable }

/-- A constructed buffer of the given geometry and cells, with the given events to come. -/
def buffer (w h : Byte) (pages : BitVec 6) (len : BitVec 13) (cells : Memory) (events : List Event) : State :=
  { constructed := true, width := w, height := h, pageCount := pages, bufLen := len, pixels := cells, parser := .idle,
    config := tfConfig, cmdIn := events, rspOut := [] }

/-- A buffer of 8 × 8 pixels. -/
def buffer8x8 (cells : Memory) (events : List Event) : State := buffer 8 8 1 8 cells events

/-- The state after reset, with the given events to come. -/
def fresh (events : List Event) : State := { State.reset with config := tfConfig, cmdIn := events }

/-- The next state, where there is one. -/
def nextOf : Result → Option State
  | .next t => some t
  | .fault _ => none
  | .refused _ => none

/-- The responses of a next state. -/
def responses (r : Result) : Option (List Word) := (nextOf r).map State.rspOut

/-- The export view of a next state. -/
def exported (r : Result) : Option (List Byte) := (nextOf r).map State.exportView

/-! ## Which commands have an encoding -/

theorem test_wellFormed_longest_text : (Instr.print (List.replicate 255 0x41)).wellFormed = true := by
  rw [Instr.wellFormed, List.length_replicate]
  decide

theorem test_illFormed_text : (Instr.print (List.replicate 256 0x41)).wellFormed = false := by
  rw [Instr.wellFormed, List.length_replicate]
  decide

theorem test_wellFormed_other :
    [Instr.construct 255 255, .clear, .pset 255 255, .pclr 0 0, .rdbyte 8191, .rdlen].all Instr.wellFormed = true := by
  decide

/-! ## Words written out from the encodings of rules R84 to R91 -/

theorem test_decode_construct :
    decode [0b0001_000000000000_10000000_01000000#32] = .ok (.construct 128 64, []) := by decide

theorem test_decode_clear : decode [0b0010_0000000000000000000000000000#32] = .ok (.clear, []) := by decide

theorem test_decode_pset : decode [0b0011_000000000000_00000101_00001010#32] = .ok (.pset 5 10, []) := by decide

theorem test_decode_pclr : decode [0b0100_000000000000_10000000_00000001#32] = .ok (.pclr 128 1, []) := by decide

theorem test_decode_print :
    decode [0b0101_000000000000_00000000_00000101#32, 0x44434241#32, 0x00000045#32, 0x70000000#32] =
      .ok (.print [0x41, 0x42, 0x43, 0x44, 0x45], [0x70000000#32]) := by decide

theorem test_decode_rdbyte : decode [0b0110_000000000000_000_1000000000011#32] = .ok (.rdbyte 4099, []) := by decide

theorem test_decode_rdlen : decode [0b0111_0000000000000000000000000000#32] = .ok (.rdlen, []) := by decide

/-- Vectors X2, X3, X4 and T15: illegal opcodes and reserved bits. -/
theorem test_decode_illegal :
    decode [0x00000000#32] = .error (.illegalOpcode 0) ∧ decode [0x80000000#32] = .error (.illegalOpcode 8) ∧
    decode [0xF0000000#32] = .error (.illegalOpcode 15) ∧ decode [0x10010808#32] = .error .reservedBitSet ∧
    decode [0x30010000#32] = .error .reservedBitSet ∧ decode [0x70000001#32] = .error .reservedBitSet ∧
    decode [0x60002000#32] = .error .reservedBitSet ∧ decode [0x20000001#32] = .error .reservedBitSet ∧
    decode [0x50000105#32, 0x30000000#32, 0x30000001#32] = .error .reservedBitSet := by decide

/-- The host's numbering: one word, and a PRINT whose payload has no bits. -/
theorem test_decodeTableWord :
    decodeTableWord 32 0x3000050A = some (.pset 5 10) ∧ decodeTableWord 32 0x50000002 = some (.print [0, 0]) ∧
    decodeTableWord 64 0x0000424150000002 = some (.print [0x41, 0x42]) ∧ decodeTableWord 32 0x20000001 = none := by
  decide

/-! ## One step each -/

/-- Vector B1. -/
theorem test_construct :
    (nextOf (step (fresh [.word 0x10008040]))).map (fun t => (t.constructed, t.width, t.height, t.pageCount, t.bufLen)) =
      some (true, 128, 64, 8, 1024) ∧
    responses (step (fresh [.word 0x10008040])) = some [0x00000000] := by decide

/-- Vector B5: the old buffer is kept. -/
theorem test_construct_zero_width :
    nextOf (step (buffer 4 16 2 8 [(3, 0x10)] [.word 0x10000008])) =
      some { buffer 4 16 2 8 [(3, 0x10)] [] with rspOut := [0x10000000] } := by decide

/-- The example of rule R131, on a buffer of 8 × 8. -/
theorem test_clear :
    nextOf (step (buffer8x8 [(0, 0x80), (3, 0xF7)] [.word 0x20000000])) =
      some { buffer8x8 [] [] with rspOut := [0x00000000] } := by decide

/-- Vector B7. -/
theorem test_pset :
    (nextOf (step (buffer 128 64 8 1024 [] [.word 0x3000050A]))).map State.pixels = some [(133, 0x04)] := by decide

/-- Vector B10: row 12 of a buffer of height 12 is padding. -/
theorem test_pset_padding_row :
    (nextOf (step (buffer 8 12 2 16 [] [.word 0x3000000B]))).map State.pixels = some [(8, 0x08)] ∧
    responses (step (buffer 8 12 2 16 [] [.word 0x3000000C])) = some [0x20000000] := by decide

/-- Vector B12: clearing one bit keeps its seven page-mates. -/
theorem test_pclr :
    (nextOf (step (buffer8x8 [(3, 0xFF)] [.word 0x40000303]))).map State.pixels = some [(3, 0xF7)] := by decide

/-- Vector B11. -/
theorem test_pclr_outOfRange :
    responses (step (buffer 128 64 8 1024 [] [.word 0x40000040])) = some [0x20000000] := by decide

/-- Program P2, step 4, taken at the last word of the PRINT. -/
theorem test_print :
    exported (step
      { buffer 12 16 2 24 [(0, 0x01), (23, 0x01)] [.word 0x00004241] with
        parser := .payload 0x50000002 1 [] }) =
      some [0x00, 0x00, 0x00, 0x00, 0x00, 0x00, 0x00, 0x00, 0x00, 0x00, 0x00, 0x01,
            0x41, 0x42, 0x43, 0x44, 0x45, 0x42, 0x43, 0x44, 0x45, 0x46, 0x00, 0x00] := by decide

/-- Vectors T3 and T4: a line wider than the buffer, clipped or refused. -/
theorem test_print_narrow :
    exported (exec (.print [0x41, 0x42]) (buffer 7 8 1 7 [] [])) =
      some [0x41, 0x42, 0x43, 0x44, 0x45, 0x42, 0x43] ∧
    nextOf (exec (.print [0x41, 0x42])
      { buffer 7 8 1 7 [] [] with config := { tfConfig with narrowLine := .fault } }) =
      some { buffer 7 8 1 7 [] [] with config := { tfConfig with narrowLine := .fault }, rspOut := [0x20000000] } := by
  decide

/-- Vector E1: the last index of the largest buffer, and the first one past it. -/
theorem test_rdbyte :
    responses (step (buffer 255 255 32 8160 [(8159, 0x5A)] [.word 0x60001FDF])) = some [0x0000005A] ∧
    responses (step (buffer 255 255 32 8160 [] [.word 0x60001FE0])) = some [0x20000000] := by decide

/-- Vector E1. -/
theorem test_rdlen : responses (step (buffer 255 255 32 8160 [] [.word 0x70000000])) = some [0x00001FE0] := by decide

/-- Vectors X1 and X5: no buffer yet, and an illegal word before that. -/
theorem test_notConstructed :
    responses (step (fresh [.word 0x70000000])) = some [0x40000000] ∧
    responses (step (fresh [.word 0x50000000])) = some [0x40000000] ∧
    responses (step (fresh [.word 0x20000001])) = some [0x50000000] := by decide

/-- Program P4: the run waits inside its PRINT, and a reset gives the reset state. -/
theorem test_waiting_print :
    nextOf (step { buffer8x8 [] [.word 0x00004241] with parser := .payload 0x50000005 2 [] }) =
      some { buffer8x8 [] [] with parser := .payload 0x50000005 1 [0x41, 0x42, 0x00, 0x00] } ∧
    nextOf (step { buffer8x8 [] [.reset] with parser := .payload 0x50000005 1 [0x41, 0x42, 0x00, 0x00] }) =
      some (fresh []) := by decide

/-- Each row's word runs as the very next step after reset. -/
theorem test_withFetchWord :
    responses (step (State.reset.withFetchWord 32 0x10000808)) = some [0x00000000] ∧
    responses (step (State.reset.withFetchWord 32 0x20000000)) = some [0x40000000] ∧
    responses (step (State.reset.withFetchWord 32 0x50000007)) = some [0x40000000] ∧
    responses (step (State.reset.withFetchWord 32 0x50000107)) = some [0x50000000] := by decide

/-! ## Assembly lines (rules R98, R99, R100) -/

theorem test_assemble_print :
    assembleLine ['P', 'R', 'I', 'N', 'T', ' ', '"', 'A', 'B', '"'] = some [0x50000002, 0x00004241] ∧
    assembleLine ['P', 'R', 'I', 'N', 'T', ' ', '"', '\\', '0', 'A', '"', ' ', ';', ' ', 'x'] =
      some [0x50000002, 0x00004100] := by decide

theorem test_assemble_operands :
    assembleLine ['P', 'S', 'E', 'T', ' ', '5', ',', ' ', '0', 'x', 'A'] = some [0x3000050A] ∧
    assembleLine ['P', 'S', 'E', 'T', ' ', '2', '5', '6', ',', '0'] = none ∧
    (AsmLine.pixel 3 3 0).words = some [0x40000303] ∧ AsmLine.newline.words = some [0x50000000] ∧
    (AsmLine.word 0x90000000).words = some [0x90000000] ∧ (AsmLine.rdbyte 8192).words = none := by decide

/-! ## Witnesses: the hypotheses of the obligations can be met

Each theorem below names the obligation whose hypotheses it meets; the values are at the boundaries of their ranges. -/

/-- The buffer of program P2, with the given events to come. -/
def lines12x16 (events : List Event) : State := buffer 12 16 2 24 [(0, 0x01), (23, 0x01)] events

/-- The largest buffer, its last byte listed. -/
def largest (events : List Event) : State := buffer 255 255 32 8160 [(8159, 0x5A)] events

/-- The invariant says nothing of the events to come. -/
theorem inv_with_events {s : State} (h : s.Inv) (events : List Event) : ({ s with cmdIn := events } : State).Inv :=
  ⟨h.geometry, h.pixels, h.parser⟩

theorem buffer8x8_inv (events : List Event) : (buffer8x8 [(3, 0xFF)] events).Inv :=
  inv_with_events (s := buffer8x8 [(3, 0xFF)] []) ⟨by decide, by decide, by decide⟩ events

theorem lines12x16_inv (events : List Event) : (lines12x16 events).Inv :=
  inv_with_events (s := lines12x16 []) ⟨by decide, by decide, by decide⟩ events

theorem largest_inv (events : List Event) : (largest events).Inv :=
  inv_with_events (s := largest []) ⟨by decide, by decide, by decide⟩ events

theorem fresh_inv (events : List Event) : (fresh events).Inv :=
  inv_with_events (s := fresh []) ⟨by decide, by decide, by decide⟩ events

theorem witness_DecodeInvertsEncode :
    (Instr.print (List.replicate 255 0x41)).WellFormed ∧ (Instr.rdbyte 8191).WellFormed :=
  ⟨test_wellFormed_longest_text, by decide⟩

theorem witness_EncodeInvertsDecode :
    (payloadWords 0x3000FFFF#32 = 0 ∧ decodeCommand 0x3000FFFF#32 [] = .ok (.pset 255 255)) ∧
    (payloadWords 0x50000000#32 = 0 ∧ decodeCommand 0x50000000#32 [] = .ok (.print [])) := by decide

theorem witness_OpcodeRowsDisjoint :
    ∃ r ∈ opcodeTable, r.mnemonic = "PRINT" ∧ r.matches 0x500000FF#32 = true := by decide

theorem witness_CharacterIsByteOfPayloadWord :
    opField 0x50000005#32 = 0x5#4 ∧ [0x44434241#32, 0x00000045#32].length = payloadWords 0x50000005#32 ∧
    4 < textLength 0x50000005#32 := by decide

theorem witness_CommandLengthFromFirstWord :
    decode [0x50000005#32, 0x44434241#32, 0x00000045#32, 0x70000000#32] =
      .ok (.print [0x41, 0x42, 0x43, 0x44, 0x45], [0x70000000#32]) ∧ opField 0x50000005#32 = 0x5#4 ∧
    decode [0x60001FFF#32] = .ok (.rdbyte 8191, []) ∧ opField 0x60001FFF#32 ≠ 0x5#4 := by decide

/-- Operands at both ends of each range and just past it. -/
theorem witness_AssembledLineDecodes :
    ((255 : Nat) ≤ 255 ∧ (0 : Nat) ≤ 255) ∧ (255 < (256 : Nat) ∨ 255 < (0 : Nat)) ∧ 1 < (2 : Nat) ∧ (8191 : Nat) ≤ 8191 ∧
    8191 < (8192 : Nat) ∧ (0xFFFFFFFF : Nat) < 2 ^ 32 ∧ 2 ^ 32 ≤ (0x100000000 : Nat) ∧
    (AsmLine.rdbyte 8191).instr = some (.rdbyte 8191) ∧ (AsmLine.print [0, 255]).instr = some (.print [0, 255]) := by
  decide

theorem witness_StepRunsDecodedCommand :
    (buffer8x8 [] [.word 0x60001FFF, .reset]).parser = .idle ∧
    (buffer8x8 [] [.word 0x60001FFF, .reset]).cmdIn = .word 0x60001FFF :: [.reset] ∧
    decode [0x60001FFF#32] = .ok (.rdbyte 8191, []) := by decide

theorem witness_RunTakesWholeCommand :
    (buffer8x8 [] [.word 0x50000002, .word 0x00004241, .reset]).parser = .idle ∧
    (buffer8x8 [] [.word 0x50000002, .word 0x00004241, .reset]).cmdIn =
      wordEvents [0x50000002, 0x00004241] ++ [.reset] ∧
    decode [0x50000002#32, 0x00004241#32] = .ok (.print [0x41, 0x42], []) := by decide

/-- The five cases of the parser. -/
theorem witness_ParserMoves :
    (buffer8x8 [] [.word 0x60001FFF]).cmdIn = .word 0x60001FFF :: [] ∧ (buffer8x8 [] []).parser = .idle ∧
    opField 0x60001FFF#32 ≠ 0x5#4 ∧
    (opField 0x50000100#32 = 0x5#4 ∧ (0x50000100#32).extractLsb' 0 8 = 0#8) ∧
    (opField 0x50000001#32 = 0x5#4 ∧ (0x50000001#32).extractLsb' 0 8 ≠ 0#8) ∧
    ({ buffer8x8 [] [] with parser := .payload 0x50000001 1 [] } : State).parser = .payload 0x50000001 1 [] ∧
    ({ buffer8x8 [] [] with parser := .payload 0x50000005 2 [] } : State).parser = .payload 0x50000005 2 [] ∧
    (2 : Nat) ≤ 2 := by decide

/-- Two payloads of `PRINT "A"` that differ in their padding bytes only. -/
theorem witness_PaddingBytesIgnored :
    (buffer8x8 [] [.word 0x50000001, .word 0x00000041]).AtCommand 0x50000001 [0x00000041] [] ∧
    (buffer8x8 [] [.word 0x50000001, .word 0xFFFFFF41]).AtCommand 0x50000001 [0xFFFFFF41] [] ∧
    buffer8x8 [] [.word 0x50000001, .word 0xFFFFFF41] =
      { buffer8x8 [] [.word 0x50000001, .word 0x00000041] with
        cmdIn := (buffer8x8 [] [.word 0x50000001, .word 0xFFFFFF41]).cmdIn } ∧
    ([0x00000041#32].flatMap payloadBytes).take (textLength 0x50000001#32) =
      ([0xFFFFFF41#32].flatMap payloadBytes).take (textLength 0x50000001#32) :=
  ⟨⟨rfl, by decide, by decide⟩, ⟨rfl, by decide, by decide⟩, by decide, by decide⟩

/-- The words of vector T15, and an illegal word of one word. -/
theorem witness_IllegalWordIsFramedAndRejected :
    (buffer8x8 [] [.word 0x50000105, .word 0x30000000, .word 0x30000001]).AtCommand 0x50000105
      [0x30000000, 0x30000001] [] ∧ legalWord 0x50000105#32 = false ∧
    (buffer8x8 [] [.word 0x20000001]).AtCommand 0x20000001 [] [] ∧ legalWord 0x20000001#32 = false :=
  ⟨⟨rfl, by decide, by decide⟩, by decide, ⟨rfl, by decide, by decide⟩, by decide⟩

/-- A command that takes effect, and one that raises an error. -/
theorem witness_OneResponsePerCommand :
    (lines12x16 [.word 0x50000002, .word 0x00004241, .reset]).Inv ∧
    (lines12x16 [.word 0x50000002, .word 0x00004241, .reset]).AtCommand 0x50000002 [0x00004241] [.reset] ∧
    (lines12x16 [.word 0x60000018]).Inv ∧ (lines12x16 [.word 0x60000018]).AtCommand 0x60000018 [] [] ∧
    responses (run 1 (lines12x16 [.word 0x60000018])) = some [0x20000000] :=
  ⟨lines12x16_inv _, ⟨rfl, by decide, by decide⟩, lines12x16_inv _, ⟨rfl, by decide, by decide⟩, by decide⟩

/-- A reset right after the header, and one before the last payload word. -/
theorem witness_ResetDiscardsPartialPrint :
    ((buffer8x8 [] []).parser = .idle ∧ ([] : List Word).length < payloadWords 0x50000001#32 ∧
      (buffer8x8 [] [.word 0x50000001, .reset]).cmdIn = wordEvents [0x50000001] ++ .reset :: []) ∧
    ([0x44434241#32].length < payloadWords 0x50000005#32 ∧
      (buffer8x8 [] [.word 0x50000005, .word 0x44434241, .reset]).cmdIn =
        wordEvents [0x50000005, 0x44434241] ++ .reset :: []) := by decide

theorem witness_EmptyStreamHasNoStep :
    ((fresh []).cmdIn = [] ∧ (fresh []).RunEnded) ∧
    (({ fresh [] with parser := .payload 0x50000001 1 [] } : State).cmdIn = [] ∧
      ¬ ({ fresh [] with parser := .payload 0x50000001 1 [] } : State).RunEnded) := by decide

theorem witness_ResetEvent :
    ({ largest [.reset, .word 0x70000000] with parser := .payload 0x50000001 1 [] } : State).cmdIn =
      .reset :: [.word 0x70000000] := by decide

theorem witness_EveryStepKeepsInvariant :
    (largest [.word 0x3000FEFE]).Inv ∧ ∃ t, step (largest [.word 0x3000FEFE]) = .next t :=
  ⟨largest_inv _, _, rfl⟩

theorem witness_EveryEventIsTaken : (largest [.word 0x3000FEFE]).Inv ∧ (largest [.word 0x3000FEFE]).cmdIn ≠ [] :=
  ⟨largest_inv _, by decide⟩

theorem witness_StreamIsConsumed : (fresh [.word 0x1000FFFF, .reset]).Inv ∧
    2 ≤ (fresh [.word 0x1000FFFF, .reset]).cmdIn.length :=
  ⟨fresh_inv _, by decide⟩

theorem witness_ConfigurationNeverChanges : ∃ t, step (largest [.reset]) = .next t := ⟨_, rfl⟩

/-- A CONSTRUCT that sets `CONSTRUCTED`, and a reset that clears it. -/
theorem witness_ConstructedSetAndCleared :
    ((fresh [.word 0x10000101]).Inv ∧ (fresh [.word 0x10000101]).constructed = false ∧
      ∃ t, step (fresh [.word 0x10000101]) = .next t ∧ t.constructed = true) ∧
    ((largest [.reset]).Inv ∧ (largest [.reset]).constructed = true ∧
      ∃ t, step (largest [.reset]) = .next t ∧ t.constructed = false) :=
  ⟨⟨fresh_inv _, rfl, _, rfl, rfl⟩, ⟨largest_inv _, rfl, _, rfl, rfl⟩⟩

theorem witness_GeometryChangesOnlyAtConstructOrReset :
    (largest [.word 0x10000101]).Inv ∧ ∃ t, step (largest [.word 0x10000101]) = .next t ∧ t.width = 1 :=
  ⟨largest_inv _, _, rfl, rfl⟩

theorem witness_PageCountAndLength : (1 : Nat) ≤ 255 ∧ (1 : Nat) ≤ 1 ∧ (255 : Nat) ≤ 255 := by decide

/-- The last pixel of the largest buffer. -/
theorem witness_TranslatorIsExact :
    (largest []).Inv ∧ (largest []).inRange 254 254 = true ∧
    (largest []).indexOf 254 254 = (largest []).indexOf 254 254 ∧ bitOf 254 = bitOf 254 :=
  ⟨largest_inv _, by decide, rfl, rfl⟩

theorem witness_ConstructCreatesBuffer :
    ((255#8 : Byte) ≠ 0#8 ∧ (1#8 : Byte) ≠ 0#8) ∧ ((0#8 : Byte) = 0#8 ∨ (255#8 : Byte) = 0#8) ∧
    (opField 0x10010808#32 = 0x1#4 ∧ (0x10010808#32).extractLsb' 16 12 ≠ 0#12) := by decide

theorem witness_ClearZeroesBuffer :
    (largest []).constructed = true ∧ 8159 < (largest []).bufLen.toNat ∧ (largest []).bufLen.toNat ≤ 8160 ∧
    (fresh []).constructed = false ∧
    (opField 0x20000001#32 = 0x2#4 ∧ (0x20000001#32).extractLsb' 0 28 ≠ 0#28) := by decide

theorem witness_PsetTurnsPixelOn :
    (largest []).Inv ∧ (largest []).constructed = true ∧
    ((254#8 : Byte).toNat < (largest []).width.toNat ∧ (254#8 : Byte).toNat < (largest []).height.toNat) ∧
    ((largest []).width.toNat ≤ (255#8 : Byte).toNat) ∧ ((largest []).height.toNat ≤ (255#8 : Byte).toNat) ∧
    ((fresh []).Inv ∧ (fresh []).constructed = false) ∧
    (opField 0x30010000#32 = 0x3#4 ∧ (0x30010000#32).extractLsb' 16 12 ≠ 0#12) :=
  ⟨largest_inv _, rfl, by decide, by decide, by decide, ⟨fresh_inv _, rfl⟩, by decide⟩

theorem witness_PclrTurnsPixelOff :
    (largest []).Inv ∧ (largest []).constructed = true ∧
    ((254#8 : Byte).toNat < (largest []).width.toNat ∧ (254#8 : Byte).toNat < (largest []).height.toNat) ∧
    ((largest []).width.toNat ≤ (255#8 : Byte).toNat) ∧ ((largest []).height.toNat ≤ (255#8 : Byte).toNat) ∧
    ((fresh []).Inv ∧ (fresh []).constructed = false) ∧
    (opField 0x48000000#32 = 0x4#4 ∧ (0x48000000#32).extractLsb' 16 12 ≠ 0#12) :=
  ⟨largest_inv _, rfl, by decide, by decide, by decide, ⟨fresh_inv _, rfl⟩, by decide⟩

/-- A sibling bit of the pixel's own byte, and the same bit of another byte. -/
theorem witness_PixelCommandsTouchOneBit :
    (buffer8x8 [(3, 0xFF)] []).Inv ∧ (∃ t, exec (.pclr 3 3) (buffer8x8 [(3, 0xFF)] []) = .next t) ∧
    ¬ (3 = (buffer8x8 [(3, 0xFF)] []).indexOf 3 3 ∧ 4 = (3#8 : Byte).toNat % 8) ∧
    ¬ (4 = (buffer8x8 [(3, 0xFF)] []).indexOf 3 3 ∧ 3 = (3#8 : Byte).toNat % 8) :=
  ⟨buffer8x8_inv _, ⟨_, rfl⟩, by decide, by decide⟩

theorem witness_PixelCommandsChangeOnePixel :
    (largest []).Inv ∧ (largest []).constructed = true ∧ (largest []).inRange 254 254 = true ∧
    (∃ t, exec (Instr.pixel 254 254 false) (largest []) = .next t) ∧ 254 < (largest []).width.toNat ∧
    255 < 8 * (largest []).pageCount.toNat :=
  ⟨largest_inv _, rfl, by decide, ⟨_, rfl⟩, by decide, by decide⟩

/-- A pixel that was on before, and one that was off. -/
theorem witness_SetThenClear :
    (buffer8x8 [(3, 0xFF)] []).Inv ∧ (buffer8x8 [(3, 0xFF)] []).constructed = true ∧
    (buffer8x8 [(3, 0xFF)] []).inRange 3 7 = true ∧ (buffer8x8 [(3, 0xFF)] []).pixelAt 3 7 = true ∧
    (buffer8x8 [(3, 0xFF)] []).inRange 7 7 = true ∧ (buffer8x8 [(3, 0xFF)] []).pixelAt 7 7 = false :=
  ⟨buffer8x8_inv _, by decide⟩

/-- A text that stops at a null byte. -/
theorem witness_RenderCountStopsAtNull :
    0 < renderCount [0x41, 0x00, 0x01] ∧ renderCount [0x41, 0x00, 0x01] < 25 ∧
    renderCount [0x41, 0x00, 0x01] < [0x41#8, 0x00#8, 0x01#8].length := by decide

theorem witness_CharactersPastRenderCountIgnored :
    renderCount [0x41, 0x00, 0x01] < [0x41#8, 0x00#8, 0x01#8].length := by decide

theorem witness_GlyphByte :
    4 < 5 ∧ glyphOf tfConfig.glyphTable 0x41 = some (tfGlyph 0x41) ∧ isDefined tfConfig 0x01 = false := by decide

/-- The configurations in which PRINT's policy checks can fail, on the buffer of program P2. -/
def strictLines : State := { lines12x16 [] with config := { tfConfig with printGeometry := .strict } }

/-- As `strictLines`, for the narrow-line policy. -/
def narrowLines : State := { lines12x16 [] with config := { tfConfig with narrowLine := .fault } }

/-- Each of the six clauses: all checks pass, a narrow line, an undefined glyph, a geometry of two pages, no buffer, an
illegal header. -/
theorem witness_PrintScrollsAndRenders :
    ((lines12x16 []).Inv ∧ (lines12x16 []).constructed = true ∧
      ¬ ((lines12x16 []).config.printGeometry = .strict ∧
        ((lines12x16 []).height.toNat % 8 ≠ 0 ∨ (lines12x16 []).pageCount.toNat < 8)) ∧
      ¬ ((lines12x16 []).config.undefGlyph = .fault ∧
        ∃ i c, i < renderCount [0x45] ∧ [(0x45 : Byte)][i]? = some c ∧ isDefined (lines12x16 []).config c = false) ∧
      ¬ ((lines12x16 []).config.narrowLine = .fault ∧ (lines12x16 []).width.toNat < 5 * renderCount [0x45])) ∧
    (narrowLines.Inv ∧ narrowLines.constructed = true ∧ narrowLines.config.printGeometry ≠ .strict ∧
      ([0x41, 0x42, 0x43] : List Byte).all (isDefined narrowLines.config) = true ∧
      narrowLines.config.narrowLine = .fault ∧ narrowLines.width.toNat < 5 * renderCount [0x41, 0x42, 0x43]) ∧
    ((lines12x16 []).config.printGeometry ≠ .strict ∧ (lines12x16 []).config.undefGlyph = .fault ∧
      ∃ i c, i < renderCount [0x41, 0x01] ∧ [(0x41 : Byte), 0x01][i]? = some c ∧
        isDefined (lines12x16 []).config c = false) ∧
    (strictLines.Inv ∧ strictLines.constructed = true ∧ strictLines.config.printGeometry = .strict ∧
      (strictLines.height.toNat % 8 ≠ 0 ∨ strictLines.pageCount.toNat < 8)) ∧
    ((fresh []).Inv ∧ (fresh []).constructed = false) ∧
    (opField 0x500001FF#32 = 0x5#4 ∧ (0x500001FF#32).extractLsb' 8 20 ≠ 0#20) := by
  refine ⟨⟨lines12x16_inv _, rfl, by decide, ?_, by decide⟩, ⟨⟨by decide, by decide, by decide⟩, by decide⟩,
    ⟨by decide, rfl, 1, 0x01, by decide⟩, ⟨⟨by decide, by decide, by decide⟩, by decide⟩, ⟨fresh_inv _, rfl⟩, by decide⟩
  rintro ⟨-, i, c, hi, hc, hd⟩
  obtain rfl : i = 0 := by
    have : renderCount [0x45] = 1 := by decide
    omega
  have hc : (0x45 : Byte) = c := by simpa using hc
  subst hc
  exact absurd hd (by decide)

/-- `PRINT "AB"` on the buffer of program P2, column 11 of rows 0 and 7 (the last row that stays above the bottom page). -/
theorem witness_PagesScrollUp :
    (lines12x16 []).Inv ∧ (∃ t, PrintsSucceed [[0x41, 0x42]] (lines12x16 []) t) ∧ 11 < (lines12x16 []).width.toNat ∧
    7 + 8 < 8 * (lines12x16 []).pageCount.toNat :=
  ⟨lines12x16_inv _, ⟨_, _, rfl, rfl, rfl⟩, by decide, by decide⟩

/-- One further PRINT, the most that two pages keep. -/
theorem witness_LinesMoveUpOnePagePerPrint :
    (lines12x16 []).Inv ∧
    (∃ t u, PrintsSucceed [[0x41, 0x42]] (lines12x16 []) t ∧ PrintsSucceed [[0x43, 0x44, 0x45]] t u) ∧
    [[(0x43 : Byte), 0x44, 0x45]].length < (lines12x16 []).pageCount.toNat ∧ 11 < (lines12x16 []).width.toNat :=
  ⟨lines12x16_inv _, ⟨_, _, ⟨_, rfl, rfl, rfl⟩, ⟨_, rfl, rfl, rfl⟩⟩, by decide, by decide⟩

/-- Two buffers that differ in their pixels. -/
theorem witness_PageCountPrintsReplaceEverything :
    (lines12x16 []).Inv ∧ (buffer 12 16 2 24 [(7, 0xFF)] []).Inv ∧
    (lines12x16 []).SameBuffer { buffer 12 16 2 24 [(7, 0xFF)] [] with pixels := (lines12x16 []).pixels } ∧
    (lines12x16 []).pageCount.toNat ≤ [[(0x41 : Byte), 0x42], []].length ∧
    (∃ t, PrintsSucceed [[0x41, 0x42], []] (lines12x16 []) t) ∧
    (∃ t, PrintsSucceed [[0x41, 0x42], []] (buffer 12 16 2 24 [(7, 0xFF)] []) t) :=
  ⟨lines12x16_inv _, ⟨by decide, by decide, by decide⟩, ⟨rfl, rfl, rfl, rfl, rfl, rfl, rfl⟩, by decide,
    ⟨_, _, rfl, rfl, _, rfl, rfl, rfl⟩, ⟨_, _, rfl, rfl, _, rfl, rfl, rfl⟩⟩

theorem witness_CommandsDependOnBufferAlone :
    (lines12x16 []).SameBuffer { lines12x16 [.reset] with parser := .payload 0x50000001 1 [], rspOut := [0x20000000] } ∧
    ∃ t, exec (.print [0x41]) (lines12x16 []) = .next t :=
  ⟨⟨rfl, rfl, rfl, rfl, rfl, rfl, rfl⟩, _, rfl⟩

theorem witness_TruncationAndClippingAreNotErrors :
    ∃ s : State, s.Inv ∧ s.constructed = true ∧ s.config.printGeometry = .general ∧ s.config.undefGlyph = .blank ∧
      s.config.narrowLine = .clip :=
  ⟨{ lines12x16 [] with config := { tfConfig with undefGlyph := .blank } }, ⟨by decide, by decide, by decide⟩,
    rfl, rfl, rfl, rfl⟩

theorem witness_RdbyteAnswersByte :
    (largest []).constructed = true ∧ (8159#13).toNat < (largest []).bufLen.toNat ∧
    (largest []).bufLen.toNat ≤ (8160#13).toNat ∧ 8160 ≤ (8160#13).toNat ∧ (fresh []).constructed = false ∧
    (opField 0x60002000#32 = 0x6#4 ∧ (0x60002000#32).extractLsb' 13 15 ≠ 0#15) := by decide

theorem witness_RdlenAnswersLength :
    (largest []).constructed = true ∧ (fresh []).constructed = false ∧
    (opField 0x70000001#32 = 0x7#4 ∧ (0x70000001#32).extractLsb' 0 28 ≠ 0#28) := by decide

theorem witness_ReadsHaveNoSideEffect :
    ((∃ k, Instr.rdbyte 8159 = .rdbyte k) ∨ Instr.rdbyte 8159 = .rdlen) ∧
    (∃ t, exec (.rdbyte 8159) (largest []) = .next t) ∧ ∃ t, exec .rdlen (largest []) = .next t :=
  ⟨.inl ⟨_, rfl⟩, ⟨_, rfl⟩, ⟨_, rfl⟩⟩

/-- The smallest buffer, one byte, and its export. -/
theorem witness_ExportReadsWholeBuffer :
    (buffer 1 1 1 1 [(0, 0x01)] [.word 0x70000000, .word 0x60000000, .reset]).Inv ∧
    (buffer 1 1 1 1 [(0, 0x01)] [.word 0x70000000, .word 0x60000000, .reset]).constructed = true ∧
    (buffer 1 1 1 1 [(0, 0x01)] [.word 0x70000000, .word 0x60000000, .reset]).parser = .idle ∧
    (buffer 1 1 1 1 [(0, 0x01)] [.word 0x70000000, .word 0x60000000, .reset]).cmdIn =
      wordEvents (header .rdlen :: (List.range 1).map (fun i => header (.rdbyte (BitVec.ofNat 13 i)))) ++ [.reset] :=
  ⟨⟨by decide, by decide, by decide⟩, rfl, rfl, by decide⟩

theorem witness_NotConstructedBeforeConstruct :
    (fresh []).constructed = false ∧ ∀ w h, Instr.rdlen ≠ .construct w h :=
  ⟨rfl, fun _ _ h => nomatch h⟩

/-- A command that raises an error, and one that does not. -/
theorem witness_ErrorsLeaveNoTrace :
    (∃ t, exec (.pset 255 0) (largest []) = .next t ∧ t.rspOut = [0x20000000]) ∧
    ∃ t, exec (.pset 254 0) (largest []) = .next t ∧ t.rspOut = [0x00000000] :=
  ⟨⟨_, rfl, rfl⟩, ⟨_, rfl, rfl⟩⟩

/-- Both sides of the equivalence. -/
theorem witness_InvalidDimensionsCause :
    (∃ t, exec (.construct 0 255) (largest []) = .next t ∧ t.rspOut = [0x10000000]) ∧
    ∃ t, exec (.construct 1 255) (largest []) = .next t ∧ t.rspOut = [0x00000000] :=
  ⟨⟨_, rfl, rfl⟩, ⟨_, rfl, rfl⟩⟩

/-- One command of each row of rule R202's table. -/
theorem witness_OutOfRangeCause :
    (largest []).Inv ∧ (∃ t, exec (.pclr 0 255) (largest []) = .next t ∧ t.rspOut = [0x20000000]) ∧
    (∃ t, exec (.rdbyte 8160) (largest []) = .next t ∧ t.rspOut = [0x20000000]) ∧
    narrowLines.Inv ∧ ∃ t, exec (.print [0x41, 0x42, 0x43]) narrowLines = .next t ∧ t.rspOut = [0x20000000] :=
  ⟨largest_inv _, ⟨_, rfl, rfl⟩, ⟨_, rfl, rfl⟩, ⟨by decide, by decide, by decide⟩, ⟨_, rfl, rfl⟩⟩

theorem witness_PrintOnlyErrors :
    (∃ t, exec (.print []) strictLines = .next t ∧ t.rspOut = [0x60000000]) ∧
    ∃ t, exec (.print [0x01]) (lines12x16 []) = .next t ∧ t.rspOut = [0x30000000] :=
  ⟨⟨_, rfl, rfl⟩, ⟨_, rfl, rfl⟩⟩

/-- A command of each kind, an error among them, and a byte each clause keeps. -/
theorem witness_CommandFrame :
    (largest []).Inv ∧ (∃ t, exec .clear (largest []) = .next t) ∧ (∀ w h, Instr.clear ≠ .construct w h) ∧
    (largest []).bufLen.toNat ≤ 8160 ∧
    (∃ t, exec (.pset 254 254) (largest []) = .next t) ∧ (∃ t, exec (.pclr 254 254) (largest []) = .next t) ∧
    8158 ≠ (largest []).indexOf 254 254 ∧ (∃ t, exec (.rdbyte 8159) (largest []) = .next t) ∧
    (∃ t, exec .rdlen (largest []) = .next t) ∧
    ∃ t, exec (.construct 0 1) (largest []) = .next t ∧ t.rspOut = [0x10000000] :=
  ⟨largest_inv _, ⟨_, rfl⟩, (fun _ _ h => nomatch h), by decide, ⟨_, rfl⟩, ⟨_, rfl⟩, by decide, ⟨_, rfl⟩, ⟨_, rfl⟩,
    ⟨_, rfl, rfl⟩⟩

/-- A text whose last word has padding bytes, and the two reasons for rejection. -/
theorem witness_AssembledPrintWords :
    ((∀ b ∈ [0, 255, 65, 66, 67], b ≤ 255) ∧ [0, 255, 65, 66, 67].length ≤ 255 ∧ 7 < 4 * ((5 + 3) / 4)) ∧
    (∃ b ∈ [65, 256], 255 < b) ∧ 255 < (List.replicate 256 65).length :=
  ⟨by decide, by decide, by rw [List.length_replicate]; decide⟩

end Sys2Proof.Tests
end

/-! PROOFS. The statements about the state of the block (10_state.md): the invariant, what a reset does, and what commands
and steps leave unchanged. -/

namespace Sys2Proof.Machine

/-! ## The invariant: reset, a new session, and the streams -/

/-- Settles O19. -/
theorem invariantAtReset : Obligations.InvariantAtReset :=
  ⟨by decide, by decide, rfl⟩

/-- A reset re-establishes the invariant from any state: no geometry, no cell, an idle parser. -/
theorem State.takeReset_inv (s : State) : s.takeReset.Inv :=
  ⟨invariantAtReset.geometry, invariantAtReset.pixels, invariantAtReset.parser⟩

/-- The invariant does not speak of the streams, and of the parser it asks `Parser.ok` alone. -/
theorem State.Inv.withParser {s : State} (hs : s.Inv) {p : Parser} (hp : p.ok = true) (rest : List Event) :
    State.Inv { s with cmdIn := rest, parser := p } :=
  ⟨hs.geometry, hs.pixels, hp⟩

/-- The page count of a byte's height fits `PAGE_COUNT`. -/
theorem pageCountOf_byte {h : Byte} (hh : h ≠ 0#8) :
    1 ≤ h.toNat ∧ pageCountOf h.toNat = (h.toNat + 7) / 8 ∧ pageCountOf h.toNat ≤ 32 := by
  have hpos : 1 ≤ h.toNat := Nat.one_le_iff_ne_zero.2 fun e => hh (BitVec.eq_of_toNat_eq e)
  have hlt : h.toNat < 256 := h.isLt
  have heq := pageCountOf_eq h.toNat hpos
  exact ⟨hpos, heq, by omega⟩

/-- A successful CONSTRUCT leaves legal registers, none of them truncated (rules R24, R25), and an empty cell list. -/
theorem State.newSession_inv {s : State} (hs : s.Inv) {w h : Byte} (hw : w ≠ 0#8) (hh : h ≠ 0#8) (r : Word) :
    ((s.newSession w h).answered r).Inv := by
  obtain ⟨hpos, hpages, hle⟩ := pageCountOf_byte hh
  have hwpos : 1 ≤ w.toNat := (pageCountOf_byte hw).1
  have hwlt : w.toNat < 256 := w.isLt
  have hpc : (BitVec.ofNat 6 (pageCountOf h.toNat)).toNat = pageCountOf h.toNat :=
    Nat.mod_eq_of_lt (by omega)
  have hlen : (BitVec.ofNat 13 (bufferLength w.toNat h.toNat)).toNat = w.toNat * pageCountOf h.toNat := by
    have hmax : w.toNat * pageCountOf h.toNat ≤ 255 * 32 := Nat.mul_le_mul (by omega) hle
    exact Nat.mod_eq_of_lt (show w.toNat * pageCountOf h.toNat < 2 ^ 13 by omega)
  exact
    { geometry := ⟨nofun, fun _ => ⟨hwpos, hpos, hpc.trans hpages, hlen.trans (congrArg (w.toNat * ·) hpc.symm)⟩⟩
      pixels := ⟨⟨List.Pairwise.nil, nofun⟩, nofun⟩
      parser := hs.parser }

/-! ## What a command other than a successful CONSTRUCT does -/

/-- `t` is `s` with one more response, and with bytes inside `[0, BUF_LEN)` changed if that response is OK. -/
def State.WritesBuffer (s t : State) : Prop :=
  ∃ (p : Memory) (r : Word), t = State.answered { s with pixels := p } r ∧ p.wf ∧
    (∀ a, s.bufLen.toNat ≤ a → p.read a = s.pixels.read a) ∧ (statusOf r ≠ statusOk → p = s.pixels)

/-- A response alone. -/
theorem State.WritesBuffer.of_answered {s : State} (hs : s.Inv) (r : Word) : s.WritesBuffer (s.answered r) :=
  ⟨s.pixels, r, rfl, hs.pixels.1, fun _ _ => rfl, fun _ => rfl⟩

/-- A canonical buffer with the old bytes from `BUF_LEN` on, and the answer OK. -/
theorem State.WritesBuffer.of_pixels {s : State} {p : Memory} (hp : p.wf)
    (hout : ∀ a, s.bufLen.toNat ≤ a → p.read a = s.pixels.read a) :
    s.WritesBuffer (State.answered { s with pixels := p } (responseWord statusOk 0)) :=
  ⟨p, _, rfl, hp, hout, fun h => absurd (statusOf_responseWord _ _) h⟩

/-- One byte written inside the buffer. -/
theorem State.WritesBuffer.of_write {s : State} (hs : s.Inv) {i : Nat} (hi : i < s.bufLen.toNat) (v : Byte) :
    s.WritesBuffer (State.answered { s with pixels := s.pixels.write i v } (responseWord statusOk 0)) := by
  refine .of_pixels (Memory.wf_write hs.pixels.1 _ _) fun a ha => ?_
  rw [Memory.read_write hs.pixels.1, if_neg (by omega)]

/-- In canonical form, a buffer that reads as unlisted from `n` on has no cell there. -/
theorem Memory.lt_of_read_unlisted {m : Memory} (hm : m.wf) {n : Nat} (h : ∀ a, n ≤ a → m.read a = unlisted) :
    ∀ c ∈ m, c.1 < n := by
  intro c hc
  by_contra hn
  exact hm.2 c hc ((read_of_mem hm hc).symm.trans (h c.1 (by omega)))

/-- Changes inside the buffer keep the invariant: a byte outside `[0, BUF_LEN)` still reads 0, so no cell is there. -/
theorem State.WritesBuffer.inv {s t : State} (hs : s.Inv) (h : s.WritesBuffer t) : t.Inv := by
  obtain ⟨p, r, rfl, hp, hout, -⟩ := h
  refine ⟨hs.geometry, ⟨hp, Memory.lt_of_read_unlisted hp fun a ha => ?_⟩, hs.parser⟩
  rw [hout a ha]
  refine Memory.read_of_not_listed fun c hc hca => ?_
  have hlt : c.1 < s.bufLen.toNat := hs.pixels.2 c hc
  have hge : s.bufLen.toNat ≤ a := ha
  omega

/-- Every command either makes a new session or writes inside the buffer. -/
theorem exec_effect {i : Instr} {s t : State} (hs : s.Inv) (h : exec i s = .next t) :
    (∃ a b, i = .construct a b ∧ a ≠ 0#8 ∧ b ≠ 0#8 ∧ t = (s.newSession a b).answered (responseWord statusOk 0)) ∨
    s.WritesBuffer t := by
  rcases exec_cases h with ⟨e, rfl⟩ | hnew | ⟨-, p, rfl, hp⟩ | ⟨-, ⟨k, -, -, rfl⟩ | ⟨-, rfl⟩⟩
  · exact .inr (.of_answered hs _)
  · exact .inl hnew
  · rcases hp with ⟨-, rfl⟩ | ⟨x, y, -, -, hlt, rfl⟩ | ⟨x, y, -, -, hlt, rfl⟩ | ⟨text, -, hle, rfl⟩
    · refine .inr (.of_pixels (Memory.wf_fill hs.pixels.1 _ _ _) fun a ha => ?_)
      rw [State.clearPixels_pixels, Memory.read_fill, if_neg (by omega)]
    · exact .inr (.of_write hs hlt _)
    · exact .inr (.of_write hs hlt _)
    · refine .inr (.of_pixels (State.printLine_wf hs.pixels.1 _) fun a ha => ?_)
      have hbase : s.bottomBase = s.bufLen.toNat - s.width.toNat := rfl
      rw [State.printLine_read hs.pixels.1, if_neg (by omega), if_neg (by omega)]
  · exact .inr (.of_answered hs _)
  · exact .inr (.of_answered hs _)

/-! ## What a step does -/

/-- A word that decodes to a CONSTRUCT is the word of that CONSTRUCT. -/
theorem eq_header_of_decodeCommand_construct {w : Word} {text : List Byte} {a b : Byte}
    (h : decodeCommand w text = .ok (.construct a b)) : w = header (.construct a b) := by
  rcases decodeCommand_ok h with ⟨a', b', hi, hw⟩ | ⟨hi, -⟩ | ⟨_, _, hi, -⟩ | ⟨_, _, hi, -⟩ | ⟨hi, -⟩ | ⟨_, hi, -⟩ |
    ⟨hi, -⟩ <;> cases hi
  exact BitVec.eq_of_toNat_eq (by rw [hw, header_toNat])

/-- `execute` answers what the decoded command does, and an illegal word changes nothing but the responses. -/
theorem execute_effect {hdr : Word} {text : List Byte} {s t : State} (hs : s.Inv)
    (h : execute hdr text s = .next t) :
    (∃ a b, hdr = header (.construct a b) ∧ a ≠ 0#8 ∧ b ≠ 0#8 ∧
      t = (s.newSession a b).answered (responseWord statusOk 0)) ∨
    s.WritesBuffer t := by
  unfold execute at h
  split at h
  · rename_i i hdec
    rcases exec_effect hs h with ⟨a, b, rfl, ha, hb, ht⟩ | hwr
    · exact .inl ⟨a, b, eq_header_of_decodeCommand_construct hdec, ha, hb, ht⟩
    · exact .inr hwr
  · rw [State.raise_eq] at h
    injection h with h
    subst h
    exact .inr (.of_answered hs _)

/-- The first word of a CONSTRUCT is no PRINT header. -/
theorem opField_header_construct (a b : Byte) : opField (header (.construct a b)) ≠ 0x5#4 := by
  intro h
  have hop : (opField (header (.construct a b))).toNat = 5 := congrArg BitVec.toNat h
  rw [opField_toNat, header_toNat] at hop
  have ha := a.isLt
  have hb := b.isLt
  simp only at hop
  omega

theorem Parser.ok_payload_iff (hdr : Word) (r : Nat) (text : List Byte) :
    (Parser.payload hdr r text).ok = true ↔
      opField hdr = 0x5#4 ∧ 1 ≤ r ∧ 4 * r + text.length = 4 * payloadWords hdr := by
  simp [Parser.ok, and_assoc]

/-- A PRINT header with a text waits for a well-framed payload (rule R160). -/
theorem Parser.ok_header {w : Word} (hop : opField w = 0x5#4) (hlen : textLength w ≠ 0) :
    (Parser.payload w (payloadWords w) []).ok = true := by
  have hwords : payloadWords w = (textLength w + 3) / 4 := if_pos hop
  exact (Parser.ok_payload_iff _ _ _).2 ⟨hop, by omega, rfl⟩

/-- A payload word that is not the last keeps the framing: four more bytes, one word less to come. -/
theorem Parser.ok_payload_next {hdr : Word} {r : Nat} {text : List Byte} (h : (Parser.payload hdr r text).ok = true)
    (hr : r ≠ 1) (w : Word) : (Parser.payload hdr (r - 1) (text ++ payloadBytes w)).ok = true := by
  obtain ⟨hop, hpos, hlen⟩ := (Parser.ok_payload_iff _ _ _).1 h
  have h4 : (payloadBytes w).length = 4 := rfl
  refine (Parser.ok_payload_iff _ _ _).2 ⟨hop, by omega, ?_⟩
  rw [List.length_append, h4]
  omega

/-- Everything a step does to the buffer from a state of the invariant: it takes a reset; or, with the parser idle, the
word of a CONSTRUCT that makes a new session; or it moves the parser, and then perhaps writes inside the buffer. -/
theorem step_effect {s t : State} (hs : s.Inv) (h : step s = .next t) :
    (∃ rest, s.cmdIn = .reset :: rest ∧ t = State.takeReset { s with cmdIn := rest }) ∨
    (s.parser = .idle ∧ ∃ a b rest, a ≠ 0#8 ∧ b ≠ 0#8 ∧ s.cmdIn = .word (header (.construct a b)) :: rest ∧
      t = (State.newSession { s with cmdIn := rest } a b).answered (responseWord statusOk 0)) ∨
    (∃ (rest : List Event) (q : Parser), q.ok = true ∧
      (t = { s with cmdIn := rest, parser := q } ∨ State.WritesBuffer { s with cmdIn := rest, parser := q } t)) := by
  rcases step_cases h with hreset | ⟨w, rest, hc, hw⟩
  · exact .inl hreset
  rcases hw with ⟨-, hop, hlen, rfl⟩ | ⟨hdr, r, text, hp, hr, rfl⟩ | ⟨hp, hex⟩ | ⟨hdr, text, hp, hex⟩
  · exact .inr (.inr ⟨rest, _, Parser.ok_header hop hlen, .inl rfl⟩)
  · exact .inr (.inr ⟨rest, _, Parser.ok_payload_next (hp ▸ hs.parser) hr w, .inl rfl⟩)
  · rcases execute_effect (hs.withParser hs.parser rest) hex with ⟨a, b, rfl, ha, hb, ht⟩ | hwr
    · exact .inr (.inl ⟨hp, a, b, rest, ha, hb, hc, ht⟩)
    · exact .inr (.inr ⟨rest, s.parser, hs.parser, .inr hwr⟩)
  · rcases execute_effect (hs.withParser (p := .idle) rfl rest) hex with ⟨a, b, rfl, -⟩ | hwr
    · have hok := hs.parser
      rw [hp, Parser.ok_payload_iff] at hok
      exact absurd hok.1 (opField_header_construct a b)
    · exact .inr (.inr ⟨rest, .idle, rfl, .inr hwr⟩)

/-- Settles O20, by the three things a step can do to the buffer (`step_effect`). -/
theorem everyStepKeepsInvariant : Obligations.EveryStepKeepsInvariant := by
  intro s t hs h
  rcases step_effect hs h with ⟨rest, -, rfl⟩ | ⟨-, a, b, rest, ha, hb, -, rfl⟩ | ⟨rest, q, hq, rfl | hwr⟩
  · exact State.takeReset_inv _
  · exact State.newSession_inv (hs.withParser hs.parser rest) ha hb _
  · exact hs.withParser hq rest
  · exact hwr.inv (hs.withParser hq rest)

/-- Settles O24: outside a reset and a new session, `step_effect` leaves `CONSTRUCTED` as it was. -/
theorem constructedSetAndCleared : Obligations.ConstructedSetAndCleared := by
  intro s t hs h
  rcases step_effect hs h with ⟨rest, hc, rfl⟩ | ⟨hp, a, b, rest, ha, hb, hc, rfl⟩ | ⟨rest, q, -, ht⟩
  · exact ⟨fun _ hset => absurd hset nofun, fun _ _ => ⟨rest, hc⟩⟩
  · exact ⟨fun _ _ => ⟨hp, a, b, rest, ha, hb, hc⟩, fun _ hcleared => absurd hcleared nofun⟩
  · have hkeep : t.constructed = s.constructed := by
      rcases ht with rfl | ⟨p, r, rfl, -⟩ <;> rfl
    rw [hkeep]
    exact ⟨fun h0 h1 => absurd (h0.symm.trans h1) nofun, fun h1 h0 => absurd (h1.symm.trans h0) nofun⟩

/-- Settles O25, by `step_effect`. -/
theorem geometryChangesOnlyAtConstructOrReset : Obligations.GeometryChangesOnlyAtConstructOrReset := by
  intro s t hs h
  rcases step_effect hs h with ⟨rest, hc, -⟩ | ⟨hp, a, b, rest, -, -, hc, -⟩ | ⟨rest, q, -, rfl | ⟨p, r, rfl, -⟩⟩
  · exact .inr (.inl ⟨rest, hc⟩)
  · exact .inr (.inr ⟨hp, a, b, rest, hc⟩)
  · exact .inl ⟨rfl, rfl, rfl, rfl⟩
  · exact .inl ⟨rfl, rfl, rfl, rfl⟩

/-! ## PSET and PCLR -/

/-- The byte `b` with the bit of row `y` on or off: what PSET and PCLR write (rules R132, R133). -/
def setRowBit (on : Bool) (y b : Byte) : Byte := if on then b ||| bitOf y else b &&& ~~~bitOf y

theorem setRowBit_getLsbD (on : Bool) (y b : Byte) {k : Nat} (hk : k < 8) :
    (setRowBit on y b).getLsbD k = if k = y.toNat % 8 then on else b.getLsbD k := by
  cases on with
  | true =>
    show (b ||| bitOf y).getLsbD k = _
    rw [BitVec.getLsbD_or, bitOf_getLsbD]
    by_cases h : k = y.toNat % 8 <;> simp [h]
  | false =>
    show (b &&& ~~~bitOf y).getLsbD k = _
    rw [BitVec.getLsbD_and, BitVec.getLsbD_not, bitOf_getLsbD]
    by_cases h : k = y.toNat % 8 <;> simp [h, hk]

/-- PIXEL of an in-range coordinate writes the one byte. -/
theorem exec_pixel_of_inRange {s : State} (hs : s.Inv) {x y : Byte} (h : s.inRange x y = true) (on : Bool) :
    exec (Instr.pixel x y on) s =
      .next (State.answered
        { s with pixels := s.pixels.write (s.indexOf x y) (setRowBit on y (s.pixels.read (s.indexOf x y))) }
        (responseWord statusOk 0)) := by
  obtain ⟨hc, hlt⟩ := State.indexOf_lt_of_inRange hs h
  cases on <;> exact (s.whenConstructed_of_constructed hc _).trans ((if_pos h).trans (State.modifyByte_of_lt hlt _))

/-- PIXEL of any other coordinate raises an error. -/
theorem exec_pixel_of_not_inRange {s : State} {x y : Byte} (h : ¬ s.inRange x y = true) (on : Bool) :
    ∃ e, exec (Instr.pixel x y on) s = s.raise e := by
  cases hc : s.constructed with
  | false => cases on <;> exact ⟨.notConstructed, s.whenConstructed_of_not hc _⟩
  | true => cases on <;> exact ⟨.outOfRange, (s.whenConstructed_of_constructed hc _).trans (if_neg h)⟩

/-- PIXEL of an in-range coordinate changes the one bit (rule R134). -/
theorem exec_pixel_getLsbD {s t : State} (hs : s.Inv) {x y : Byte} (hr : s.inRange x y = true) {on : Bool}
    (h : exec (Instr.pixel x y on) s = .next t) :
    t.width = s.width ∧ ∀ a k, k < 8 →
      (t.pixels.read a).getLsbD k =
        if a = s.indexOf x y ∧ k = y.toNat % 8 then on else (s.pixels.read a).getLsbD k := by
  rw [exec_pixel_of_inRange hs hr] at h
  injection h with h
  subst h
  refine ⟨rfl, fun a k hk => ?_⟩
  rw [State.answered_pixels, Memory.read_write hs.pixels.1]
  by_cases ha : a = s.indexOf x y
  · rw [if_pos ha, setRowBit_getLsbD _ _ _ hk, ha]
    simp only [true_and]
  · rw [if_neg ha, if_neg fun hak => ha hak.1]

/-- In a layout of `W` columns, the byte of a column and a page determines both (rules R122, R124). -/
theorem column_page_eq_iff {W c c' p p' : Nat} (hc : c < W) (hc' : c' < W) :
    c + p * W = c' + p' * W ↔ c = c' ∧ p = p' := by
  refine ⟨fun h => ?_, fun ⟨hcol, hpage⟩ => by rw [hcol, hpage]⟩
  have hcol : c = c' := by
    have hmod := congrArg (· % W) h
    simpa [Nat.mod_eq_of_lt hc, Nat.mod_eq_of_lt hc'] using hmod
  subst hcol
  exact ⟨rfl, Nat.eq_of_mul_eq_mul_right (by omega) (Nat.add_left_cancel h)⟩

/-- Settles O35: PIXEL changes one bit of one byte, and a pixel of the layout is one bit of one byte
(`column_page_eq_iff`). -/
theorem pixelCommandsChangeOnePixel : Obligations.PixelCommandsChangeOnePixel := by
  intro s t x y on col row hs _ hr h hcol _
  obtain ⟨hwidth, hbit⟩ := exec_pixel_getLsbD hs hr h
  have hbyte : col + row / 8 * s.width.toNat = s.indexOf x y ↔ col = x.toNat ∧ row / 8 = y.toNat / 8 :=
    column_page_eq_iff hcol ((s.inRange_iff x y).1 hr).1
  unfold State.pixelAt
  rw [hwidth, hbit _ _ (Nat.mod_lt _ (by decide))]
  refine if_congr ?_ rfl rfl
  rw [hbyte]
  omega

/-! ## The frame of every command -/

/-- RDBYTE and RDLEN only answer (rule R58). -/
theorem exec_read_answers {s t : State} {i : Instr} (hread : (∃ k, i = .rdbyte k) ∨ i = .rdlen)
    (h : exec i s = .next t) : ∃ r, t = s.answered r := by
  rcases exec_cases h with ⟨e, ht⟩ | ⟨a, b, rfl, -⟩ | ⟨-, p, -, hp⟩ | ⟨-, ⟨k, -, -, ht⟩ | ⟨-, ht⟩⟩
  · exact ⟨_, ht⟩
  · simp at hread
  · rcases hp with ⟨rfl, -⟩ | ⟨x, y, rfl, -⟩ | ⟨x, y, rfl, -⟩ | ⟨text, rfl, -⟩ <;> simp at hread
  · exact ⟨_, ht⟩
  · exact ⟨_, ht⟩

/-- PSET and PCLR leave every byte but that of their pixel (rule R134). -/
theorem exec_pixel_read {s t : State} (hs : s.Inv) {x y : Byte} {on : Bool}
    (h : exec (Instr.pixel x y on) s = .next t) {a : Nat} (ha : a ≠ s.indexOf x y) :
    t.pixels.read a = s.pixels.read a := by
  by_cases hr : s.inRange x y = true
  · rw [exec_pixel_of_inRange hs hr] at h
    injection h with h
    subst h
    rw [State.answered_pixels, Memory.read_write hs.pixels.1, if_neg ha]
  · obtain ⟨e, he⟩ := exec_pixel_of_not_inRange hr on
    rw [he, State.raise_eq] at h
    injection h with h
    subst h
    rfl

/-- Every command leaves the parser, the stream and the configuration, and answers once; an error leaves no other trace
(rule R207). -/
theorem exec_answers {s t : State} {i : Instr} (hs : s.Inv) (h : exec i s = .next t) :
    t.parser = s.parser ∧ t.cmdIn = s.cmdIn ∧ t.config = s.config ∧
    ∃ r, t.rspOut = s.rspOut ++ [r] ∧ (statusOf r ≠ statusOk → t = s.answered r) := by
  rcases exec_effect hs h with ⟨a, b, -, -, -, rfl⟩ | ⟨p, r, rfl, -, -, herr⟩
  · exact ⟨rfl, rfl, rfl, _, rfl, fun hne => absurd (statusOf_responseWord _ _) hne⟩
  · exact ⟨rfl, rfl, rfl, r, rfl, fun hne => by rw [herr hne]⟩

/-- Settles O55, from `exec_answers`, `exec_effect`, `exec_pixel_read` and `exec_read_answers`. -/
theorem commandFrame : Obligations.CommandFrame := by
  intro s t i hs h
  obtain ⟨hparser, hcmdIn, hconfig, hresponse⟩ := exec_answers hs h
  refine ⟨hparser, hcmdIn, hconfig, hresponse, fun hnew => ?_, fun x y hi a ha => ?_, fun hread => ?_⟩
  · rcases exec_effect hs h with ⟨a, b, hi, -⟩ | ⟨p, r, rfl, -, hout, -⟩
    · exact absurd hi (hnew a b)
    · exact ⟨rfl, rfl, rfl, rfl, rfl, hout⟩
  · rcases hi with rfl | rfl
    · exact exec_pixel_read (on := true) hs h ha
    · exact exec_pixel_read (on := false) hs h ha
  · obtain ⟨r, rfl⟩ := exec_read_answers hread h
    rfl

/-! ## Power-on and reset -/

/-- Settles O17. -/
theorem powerOnState : Obligations.PowerOnState :=
  ⟨rfl, rfl, rfl, rfl, rfl, rfl, Memory.read_nil, rfl⟩

theorem step_reset {s : State} {rest : List Event} (h : s.cmdIn = .reset :: rest) :
    step s = .next (State.takeReset { s with cmdIn := rest }) := by
  simp [step, h, receive]

/-- Settles O18. -/
theorem resetEvent : Obligations.ResetEvent :=
  fun _ _ h => step_reset h

end Sys2Proof.Machine

/-! PROOFS. The statements about memory (20_memory.md): no access falls outside the buffer, the configuration is never
written, and reads have no side effect. -/

namespace Sys2Proof.Machine

/-! ## Progress -/

/-- The check for a session answers by itself, so a command need only answer in a constructed state. -/
theorem State.whenConstructed_progress {s : State} {r : Result} (h : s.constructed = true → ∃ t, r = .next t) :
    ∃ t, s.whenConstructed r = .next t := by
  rcases s.whenConstructed_cases r with ⟨hc, he⟩ | ⟨-, he⟩ <;> rw [he]
  · exact h hc
  · exact ⟨_, rfl⟩

/-- PIXEL of an in-range coordinate writes inside the buffer; any other coordinate raises an error. -/
theorem exec_pixel_progress {s : State} (hs : s.Inv) (x y : Byte) (on : Bool) :
    ∃ t, exec (Instr.pixel x y on) s = .next t := by
  by_cases hr : s.inRange x y = true
  · exact ⟨_, exec_pixel_of_inRange hs hr on⟩
  · obtain ⟨e, he⟩ := exec_pixel_of_not_inRange hr on
    exact ⟨_, he⟩

/-- No command stops the machine in a state of the invariant (rules R51, R200): a pixel in range has its byte in the
buffer, and the buffer holds the bottom page. -/
theorem exec_progress {s : State} (hs : s.Inv) (i : Instr) : ∃ t, exec i s = .next t := by
  cases i with
  | construct w h =>
    simp only [exec, execConstruct]
    split <;> exact ⟨_, rfl⟩
  | clear => exact State.whenConstructed_progress fun _ => ⟨_, rfl⟩
  | pset x y => exact exec_pixel_progress hs x y true
  | pclr x y => exact exec_pixel_progress hs x y false
  | print text =>
    have hpage : ¬ s.bufLen.toNat < s.width.toNat := Nat.not_lt.2 (State.width_le_bufLen hs)
    refine State.whenConstructed_progress fun _ => ?_
    simp only [if_neg hpage]
    split_ifs <;> exact ⟨_, rfl⟩
  | rdbyte index =>
    refine State.whenConstructed_progress fun _ => ?_
    split <;> exact ⟨_, rfl⟩
  | rdlen => exact State.whenConstructed_progress fun _ => ⟨_, rfl⟩

theorem execute_progress {s : State} (hs : s.Inv) (hdr : Word) (text : List Byte) :
    ∃ t, execute hdr text s = .next t := by
  unfold execute
  split
  · exact exec_progress hs _
  · exact ⟨_, rfl⟩

/-- A word either moves the parser alone or completes a command. -/
theorem receiveWord_progress {s : State} (hs : s.Inv) (w : Word) : ∃ t, receiveWord w s = .next t := by
  unfold receiveWord
  split
  · split
    · split
      · exact execute_progress hs w []
      · exact ⟨_, rfl⟩
    · exact execute_progress hs w []
  · split
    · exact execute_progress (hs.withParser (p := .idle) rfl s.cmdIn) _ _
    · exact ⟨_, rfl⟩

/-- Settles O21: a reset always gives a next state, and a word does by `receiveWord_progress`. -/
theorem everyEventIsTaken : Obligations.EveryEventIsTaken := by
  intro s hs hne
  obtain ⟨e, rest, hc⟩ := List.exists_cons_of_ne_nil hne
  cases e with
  | reset => exact ⟨_, step_reset hc⟩
  | word w =>
    rw [step_word hc]
    exact receiveWord_progress (hs.withParser hs.parser rest) w

/-! ## The configuration -/

/-- No command writes the configuration, whatever the state. -/
theorem exec_config {i : Instr} {s t : State} (h : exec i s = .next t) : t.config = s.config := by
  rcases exec_cases h with ⟨e, rfl⟩ | ⟨a, b, -, -, -, rfl⟩ | ⟨-, p, rfl, -⟩ | ⟨-, ⟨k, -, -, rfl⟩ | ⟨-, rfl⟩⟩ <;> rfl

theorem execute_config {hdr : Word} {text : List Byte} {s t : State} (h : execute hdr text s = .next t) :
    t.config = s.config := by
  unfold execute at h
  split at h
  · exact exec_config h
  · injection h with h
    subst h
    rfl

/-- Settles O23: a reset and a move of the parser keep the configuration, and so does every command. -/
theorem configurationNeverChanges : Obligations.ConfigurationNeverChanges := by
  intro s t h
  rcases step_cases h with ⟨rest, -, rfl⟩ | ⟨w, rest, -, hw⟩
  · rfl
  rcases hw with ⟨-, -, -, rfl⟩ | ⟨hdr, r, text, -, -, rfl⟩ | ⟨-, hex⟩ | ⟨hdr, text, -, hex⟩
  · rfl
  · rfl
  · exact (execute_config hex).trans rfl
  · exact (execute_config hex).trans rfl

/-! ## Reads -/

theorem State.sameBuffer_refl (s : State) : s.SameBuffer s :=
  ⟨rfl, rfl, rfl, rfl, rfl, rfl, rfl⟩

/-- A response is no part of the buffer. -/
theorem State.sameBuffer_answered (s : State) (r : Word) : s.SameBuffer (s.answered r) :=
  ⟨rfl, rfl, rfl, rfl, rfl, rfl, rfl⟩

/-- RDBYTE and RDLEN only answer, and the response is the buffer's: every state that holds the same buffer gives the same
one (rules R190, R191). -/
theorem exec_read_answers_sameBuffer (s : State) {i : Instr} (hread : (∃ k, i = .rdbyte k) ∨ i = .rdlen) :
    ∃ r, ∀ u, s.SameBuffer u → exec i u = .next (u.answered r) := by
  cases hc : s.constructed with
  | false =>
    refine ⟨responseWord 0x4#4 0, fun u hu => ?_⟩
    have hcu : u.constructed = false := hu.constructed ▸ hc
    rcases hread with ⟨k, rfl⟩ | rfl <;> exact u.whenConstructed_of_not hcu _
  | true =>
    have hrun : ∀ u, s.SameBuffer u → ∀ r : Result, u.whenConstructed r = r := fun u hu r =>
      u.whenConstructed_of_constructed (hu.constructed ▸ hc) r
    rcases hread with ⟨k, rfl⟩ | rfl
    · by_cases hk : s.bufLen.toNat ≤ k.toNat
      · exact ⟨_, fun u hu => (hrun u hu _).trans (if_pos (hu.bufLen ▸ hk))⟩
      · refine ⟨responseWord statusOk ((s.pixels.read k.toNat).setWidth 16), fun u hu => ?_⟩
        rw [hu.pixels]
        exact (hrun u hu _).trans (if_neg (hu.bufLen ▸ hk))
    · refine ⟨responseWord statusOk (s.bufLen.setWidth 16), fun u hu => ?_⟩
      rw [hu.bufLen]
      exact hrun u hu _

/-- Settles O48: the first response leaves the buffer, so the second is the same (`exec_read_answers_sameBuffer`). -/
theorem readsHaveNoSideEffect : Obligations.ReadsHaveNoSideEffect := by
  intro s t i hread h
  obtain ⟨r, hr⟩ := exec_read_answers_sameBuffer s hread
  rw [hr s s.sameBuffer_refl] at h
  injection h with h
  subst h
  exact ⟨r, rfl, hr _ (s.sameBuffer_answered r)⟩

end Sys2Proof.Machine

/-! PROOFS. The statements about the encoding (30_encoding.md): the decoder, the encoder and the opcode table, the framing
of commands on the stream, and the words of assembly lines. -/

namespace Sys2Proof.Machine

/-! ## Decoding an encoded command -/

theorem textLength_eq_mod (w : Word) : textLength w = w.toNat % 256 := by
  rw [textLength, lowField, field_toNat, Nat.pow_zero, Nat.div_one]
  rfl

theorem payloadWords_of_print {w : Word} (h : opField w = 0x5#4) : payloadWords w = (textLength w + 3) / 4 := if_pos h

theorem payloadWords_of_not_print {w : Word} (h : opField w ≠ 0x5#4) : payloadWords w = 0 := if_neg h

/-- The payload of a well-formed command is as long as its first word announces (rule R95). -/
theorem payload_length {i : Instr} (h : i.WellFormed) : (payload i).length = payloadWords (header i) := by
  have hlen : (encode i).length = 1 + payloadWords (header i) := by
    cases i with
    | construct a b => exact Laws.EncodedLength.construct a b h
    | clear => exact Laws.EncodedLength.clear h
    | pset x y => exact Laws.EncodedLength.pset x y h
    | pclr x y => exact Laws.EncodedLength.pclr x y h
    | print text => exact Laws.EncodedLength.print text h
    | rdbyte k => exact Laws.EncodedLength.rdbyte k h
    | rdlen => exact Laws.EncodedLength.rdlen h
  rw [encode, List.length_cons] at hlen
  omega

/-- The bytes of a packed text, cut to the length its header announces, are the text (rules R88, R89). -/
theorem payloadText_print {text : List Byte} (h : text.length ≤ 255) :
    payloadText (header (.print text)) (packPayload text) = text := by
  have hlen : textLength (header (.print text)) = text.length := by
    rw [textLength_eq_mod, header_toNat]
    simp only
    omega
  obtain ⟨pad, hpad⟩ := payloadBytes_packPayload text
  rw [payloadText, hpad, hlen, List.take_left]

/-- A command's own words decode to it (rules R84 to R92). -/
theorem decodeCommand_encode {i : Instr} (h : i.WellFormed) :
    decodeCommand (header i) (payloadText (header i) (payload i)) = .ok i := by
  obtain ⟨hconstruct, hclear, hpset, hpclr, hprint, hrdbyte, hrdlen⟩ :=
    decodeCommand_of_toNat (w := header i) (payloadText (header i) (payload i))
  have hword := header_toNat i
  cases i with
  | construct a b => exact hconstruct a b hword
  | clear => exact hclear hword
  | pset x y => exact hpset x y hword
  | pclr x y => exact hpclr x y hword
  | print text =>
    have hdec := hprint (text.length % 256) (Nat.mod_lt _ (by decide)) hword
    rwa [show payload (.print text) = packPayload text from rfl, payloadText_print (of_decide_eq_true h)] at hdec ⊢
  | rdbyte k => exact hrdbyte k hword
  | rdlen => exact hrdlen hword

/-- The decoder on a first word with the payload it announces, whatever follows (rule R95). -/
theorem decode_framed {w : Word} {ps : List Word} {i : Instr} (hlen : ps.length = payloadWords w)
    (h : decodeCommand w (payloadText w ps) = .ok i) (rest : List Word) : decode (w :: (ps ++ rest)) = .ok (i, rest) := by
  have henough : ¬ (ps ++ rest).length < payloadWords w := by
    rw [List.length_append]
    omega
  rw [decode, if_neg henough, ← hlen, List.take_left, List.drop_left, h]

/-- Settles O1: a command's header announces its payload (`payload_length`), and the two decode to it
(`decodeCommand_encode`). -/
theorem decodeInvertsEncode : Obligations.DecodeInvertsEncode :=
  fun _ rest h => decode_framed (payload_length h) (decodeCommand_encode h) rest

/-- Words that a well-formed command encodes as decode to it. -/
theorem decode_of_encode_eq {i : Instr} {ws : List Word} (hi : i.WellFormed) (h : encode i = ws) :
    decode ws = .ok (i, []) := by
  rw [← h, ← List.append_nil (encode i)]
  exact decodeInvertsEncode i [] hi

/-- Settles O5: the six encodings evaluate, and each decodes by `decode_of_encode_eq`. -/
theorem exampleEncodings : Obligations.ExampleEncodings := by
  have hconstruct : encode (.construct 128 64) = [0x10008040#32] := by decide
  have hpset : encode (.pset 5 10) = [0x3000050A#32] := by decide
  have hpclr : encode (.pclr 3 3) = [0x40000303#32] := by decide
  have hshort : encode (.print [0x41, 0x42]) = [0x50000002#32, 0x00004241#32] := by decide
  have hlong : encode (.print [0x41, 0x42, 0x43, 0x44, 0x45]) = [0x50000005#32, 0x44434241#32, 0x00000045#32] := by
    decide
  have hrdbyte : encode (.rdbyte 1023) = [0x600003FF#32] := by decide
  exact ⟨hconstruct, decode_of_encode_eq rfl hconstruct, hpset, decode_of_encode_eq rfl hpset,
    hpclr, decode_of_encode_eq rfl hpclr, hshort, decode_of_encode_eq rfl hshort,
    hlong, decode_of_encode_eq rfl hlong, hrdbyte, decode_of_encode_eq rfl hrdbyte⟩

/-! ## Encoding a decoded command -/

/-- A header with `OP = 0x5` that announces no payload announces no text. -/
theorem textLength_of_no_payload {w : Word} (hop : opField w = 0x5#4) (h : payloadWords w = 0) : textLength w = 0 := by
  rw [payloadWords_of_print hop] at h
  omega

/-- Settles O2, by the number that a word of each command is (`decodeCommand_ok`). -/
theorem encodeInvertsDecode : Obligations.EncodeInvertsDecode := by
  intro w i hnone hdec
  have of_header : payload i = [] → (header i).toNat = w.toNat → encode i = [w] := fun hp hw => by
    rw [encode, hp, BitVec.eq_of_toNat_eq hw]
  rcases decodeCommand_ok hdec with ⟨a, b, rfl, hw⟩ | ⟨rfl, hw⟩ | ⟨x, y, rfl, hw⟩ | ⟨x, y, rfl, hw⟩ | ⟨rfl, hw⟩ |
    ⟨k, rfl, hw⟩ | ⟨rfl, hw⟩
  · exact of_header rfl ((header_toNat _).trans hw.symm)
  · exact of_header rfl ((header_toNat _).trans hw.symm)
  · exact of_header rfl ((header_toNat _).trans hw.symm)
  · exact of_header rfl ((header_toNat _).trans hw.symm)
  · have hop : opField w = 0x5#4 := by
      have hlt := textLength_lt w
      exact BitVec.eq_of_toNat_eq (by rw [opField_toNat, BitVec.toNat_ofNat]; omega)
    rw [textLength_of_no_payload hop hnone] at hw
    exact of_header rfl ((header_toNat _).trans hw.symm)
  · exact of_header rfl ((header_toNat _).trans hw.symm)
  · exact of_header rfl ((header_toNat _).trans hw.symm)

/-! ## The opcode table -/

/-- The bits of a word from `k` up, as a number. -/
theorem toNat_and_high_bits (w : Word) (k : Nat) :
    (w &&& BitVec.allOnes 32 <<< k).toNat = w.toNat / 2 ^ k * 2 ^ k := by
  have hshift : w &&& BitVec.allOnes 32 <<< k = (w >>> k) <<< k := by
    apply BitVec.eq_of_getLsbD_eq
    intro i hi
    rw [BitVec.getLsbD_and, BitVec.getLsbD_shiftLeft, BitVec.getLsbD_shiftLeft, BitVec.getLsbD_ushiftRight,
      BitVec.getLsbD_allOnes]
    by_cases hk : i < k
    · simp [hk]
    · simp [hk, hi, Nat.add_sub_of_le (Nat.le_of_not_lt hk), show i - k < 32 by omega]
  have hlt : w.toNat / 2 ^ k * 2 ^ k < 2 ^ 32 := Nat.lt_of_le_of_lt (Nat.div_mul_le_self _ _) w.isLt
  rw [hshift, BitVec.toNat_shiftLeft, BitVec.toNat_ushiftRight, Nat.shiftLeft_eq, Nat.shiftRight_eq_div_pow,
    Nat.mod_eq_of_lt hlt]

/-- Membership in a row of the opcode table whose mask is the bits from `k` up, as a number. -/
theorem opcodeRow_matches_iff {r : OpcodeRow} {k : Nat} (hmask : r.mask = BitVec.allOnes 32 <<< k) (w : Word) :
    r.matches w = true ↔ w.toNat / 2 ^ k * 2 ^ k = r.value.toNat := by
  rw [OpcodeRow.matches, decide_eq_true_iff, ← BitVec.toNat_inj, hmask, toNat_and_high_bits]

/-- The legal words as numbers, row by row of the opcode table. -/
theorem legalWord_iff (w : Word) :
    legalWord w = true ↔
      w.toNat / 2 ^ 16 * 2 ^ 16 = 0x10000000 ∨ w.toNat = 0x20000000 ∨ w.toNat / 2 ^ 16 * 2 ^ 16 = 0x30000000 ∨
      w.toNat / 2 ^ 16 * 2 ^ 16 = 0x40000000 ∨ w.toNat / 2 ^ 8 * 2 ^ 8 = 0x50000000 ∨
      w.toNat / 2 ^ 13 * 2 ^ 13 = 0x60000000 ∨ w.toNat = 0x70000000 := by
  have row : ∀ (m : String) (k : Nat) (v : Word),
      OpcodeRow.matches ⟨m, BitVec.allOnes 32 <<< k, v⟩ w = true ↔ w.toNat / 2 ^ k * 2 ^ k = v.toNat :=
    fun m k v => opcodeRow_matches_iff rfl w
  have hrows := or_congr (row "CONSTRUCT" 16 0x10000000) <| or_congr (row "CLEAR" 0 0x20000000) <|
    or_congr (row "PSET" 16 0x30000000) <| or_congr (row "PCLR" 16 0x40000000) <|
    or_congr (row "PRINT" 8 0x50000000) <| or_congr (row "RDBYTE" 13 0x60000000) (row "RDLEN" 0 0x70000000)
  simp only [Nat.pow_zero, Nat.div_one, Nat.mul_one] at hrows
  refine Iff.trans ?_ hrows
  simp [legalWord, opcodeTable]

/-- Settles O3: both sides say which numbers the word may be (`decodeCommand_ok`, `legalWord_iff`). -/
theorem decoderAcceptsOpcodeTable : Obligations.DecoderAcceptsOpcodeTable := by
  intro w text
  rw [legalWord_iff]
  constructor
  · rintro ⟨i, hdec⟩
    have hlt := textLength_lt w
    rcases decodeCommand_ok hdec with ⟨a, b, -, hw⟩ | ⟨-, hw⟩ | ⟨a, b, -, hw⟩ | ⟨a, b, -, hw⟩ | ⟨-, hw⟩ |
      ⟨k, -, hw⟩ | ⟨-, hw⟩ <;> omega
  · obtain ⟨hconstruct, hclear, hpset, hpclr, hprint, hrdbyte, hrdlen⟩ := decodeCommand_of_toNat (w := w) text
    have hhigh : (highField w).toNat = w.toNat / 2 ^ 8 % 2 ^ 8 := field_toNat _ _ _
    have hlow : (lowField w).toNat = w.toNat / 2 ^ 0 % 2 ^ 8 := field_toNat _ _ _
    have hindex : (indexField w).toNat = w.toNat / 2 ^ 0 % 2 ^ 13 := field_toNat _ _ _
    rintro (h | h | h | h | h | h | h)
    · exact ⟨_, hconstruct (highField w) (lowField w) (by omega)⟩
    · exact ⟨_, hclear h⟩
    · exact ⟨_, hpset (highField w) (lowField w) (by omega)⟩
    · exact ⟨_, hpclr (highField w) (lowField w) (by omega)⟩
    · exact ⟨_, hprint (w.toNat % 256) (by omega) (by omega)⟩
    · exact ⟨_, hrdbyte (indexField w) (by omega)⟩
    · exact ⟨_, hrdlen h⟩

/-- Every row fixes the opcode bits, so a word of a row has the row's opcode. -/
theorem opField_of_matches {r : OpcodeRow} {w : Word} (hr : r ∈ opcodeTable) (h : r.matches w = true) :
    opField w = opField r.value := by
  have hmask : ∀ q ∈ opcodeTable, opField q.mask = BitVec.allOnes 4 := by decide
  rw [← of_decide_eq_true h, opField, opField, BitVec.extractLsb'_and, ← opField, ← opField, hmask r hr,
    BitVec.and_allOnes]

/-- Settles O4: the rows' opcodes are all different. -/
theorem opcodeRowsDisjoint : Obligations.OpcodeRowsDisjoint := by
  intro w r q hr hq hrw hqw
  have hdistinct : (opcodeTable.map fun r => opField r.value).Nodup := by decide
  exact List.inj_on_of_nodup_map hdistinct hr hq
    ((opField_of_matches hr hrw).symm.trans (opField_of_matches hq hqw))

/-! ## The characters and the length of a command -/

/-- Byte `i` of a list of payload words is byte `i % 4` of word `i / 4` (rule R88). -/
theorem flatMap_payloadBytes_getElem? (ps : List Word) (i : Nat) :
    (ps.flatMap payloadBytes)[i]? = ps[i / 4]?.map fun p => p.extractLsb' (8 * (i % 4)) 8 := by
  induction ps generalizing i with
  | nil => simp
  | cons p ps ih =>
    have hfour : (payloadBytes p).length = 4 := rfl
    rw [List.flatMap_cons]
    by_cases hi : i < 4
    · rw [List.getElem?_append_left (by omega), Nat.div_eq_of_lt hi, Nat.mod_eq_of_lt hi]
      match i, hi with
      | 0, _ | 1, _ | 2, _ | 3, _ => rfl
    · obtain ⟨j, rfl⟩ := Nat.exists_eq_add_of_le' (Nat.le_of_not_lt hi)
      rw [List.getElem?_append_right (by omega), hfour, Nat.add_sub_cancel, ih, Nat.add_div_right _ (by decide),
        List.getElem?_cons_succ, Nat.add_mod_right]

/-- Settles O6, by `flatMap_payloadBytes_getElem?`: the payload has a word for each position of the text. -/
theorem characterIsByteOfPayloadWord : Obligations.CharacterIsByteOfPayloadWord := by
  intro hdr ps i hop hlen hi
  rw [payloadWords_of_print hop] at hlen
  have hword : ps[i / 4]? = some ps[i / 4] := List.getElem?_eq_getElem (by omega)
  refine ⟨_, hword, ?_⟩
  rw [payloadText, List.getElem?_take, if_pos hi, flatMap_payloadBytes_getElem?, hword, Option.map_some]

/-- The announced payload is at most 64 words (rule R95). -/
theorem payloadWords_le (w : Word) : payloadWords w ≤ 64 := by
  have hlt := textLength_lt w
  unfold payloadWords
  split <;> omega

/-- Where the decoder gives a command, the announced payload was there, and the rest is what follows it. -/
theorem decode_rest {w : Word} {ws rest : List Word} {i : Instr} (h : decode (w :: ws) = .ok (i, rest)) :
    payloadWords w ≤ ws.length ∧ rest = ws.drop (payloadWords w) := by
  rw [decode] at h
  split at h
  · cases h
  · rename_i henough
    split at h <;> cases h
    exact ⟨Nat.le_of_not_lt henough, rfl⟩

/-- Settles O7, by `decode_rest`. -/
theorem commandLengthFromFirstWord : Obligations.CommandLengthFromFirstWord := by
  intro w ws i rest h
  obtain ⟨henough, rfl⟩ := decode_rest h
  refine ⟨?_, List.drop_suffix _ _, payloadWords_le w, payloadWords_of_print, payloadWords_of_not_print⟩
  rw [List.length_cons, List.length_drop]
  omega

/-! ## Taking a whole command -/

theorem execute_of_decode {w : Word} {text : List Byte} {i : Instr} (h : decodeCommand w text = .ok i) (s : State) :
    execute w text s = exec i s := by
  rw [execute, h]

/-- An illegal word raises `IllegalCommand`, whatever text came with it (rule R205). -/
theorem execute_of_not_legal {w : Word} (h : legalWord w = false) (text : List Byte) (s : State) :
    execute w text s = s.raise .illegalCommand := by
  unfold execute
  split
  · rename_i i hdec
    exact absurd ((decoderAcceptsOpcodeTable w text).1 ⟨i, hdec⟩) (by simp [h])
  · rfl

/-- Settles O10: the words are the command's own (`decode_whole`), and taking them executes it (`run_command`). -/
theorem runTakesWholeCommand : Obligations.RunTakesWholeCommand := by
  intro s ws rest i hidle hstream hdec
  cases ws with
  | nil => cases hdec
  | cons w ps =>
    obtain ⟨hlen, hcmd⟩ := decode_whole hdec
    rw [List.length_cons, Nat.add_comm, run_command ⟨hidle, hlen, hstream⟩, execute_of_decode hcmd]

/-- Settles O9: the one-word case of `runTakesWholeCommand`. -/
theorem stepRunsDecodedCommand : Obligations.StepRunsDecodedCommand := by
  intro s w rest i hidle hstream hdec
  rw [← run_one]
  exact runTakesWholeCommand s [w] rest i hidle hstream hdec

/-- Settles O12: the two runs execute one header on one text (`run_command`). -/
theorem paddingBytesIgnored : Obligations.PaddingBytesIgnored := by
  intro s t hdr ps qs rest hs ht hsame htext
  have hleft : ({ t with cmdIn := rest } : State) = { s with cmdIn := rest } := by rw [hsame]
  rw [run_command hs, run_command ht, payloadText, payloadText, htext, hleft]

/-- Settles O13, by `run_command` and `execute_of_not_legal`. -/
theorem illegalWordIsFramedAndRejected : Obligations.IllegalWordIsFramedAndRejected := by
  intro s w ps rest hs hillegal
  rw [run_command hs, execute_of_not_legal hillegal]
  rfl

/-! ## The one response of a command -/

theorem CommandError.code_le (e : CommandError) : e.code.toNat ≤ 6 := by
  cases e <;> decide

/-- The bits of rule R96 between `STATUS` and `DATA`. -/
theorem responseWord_middle (st : BitVec 4) (d : BitVec 16) : (responseWord st d).extractLsb' 16 12 = 0#12 := by
  rw [extractLsb'_eq_iff]
  intro i hi
  rw [responseWord_getLsbD, if_neg (by omega), if_pos (by omega), BitVec.getLsbD_zero]

/-- A command raises an error, or it answers OK and leaves the parser and the stream. -/
def State.AnswersOnce (s t : State) : Prop :=
  (∃ e : CommandError, t = s.answered (responseWord e.code 0)) ∨
  (t.parser = s.parser ∧ t.cmdIn = s.cmdIn ∧ ∃ d, t.rspOut = s.rspOut ++ [responseWord statusOk d])

theorem exec_answersOnce {i : Instr} {s t : State} (h : exec i s = .next t) : s.AnswersOnce t := by
  rcases exec_cases h with herr | ⟨a, b, -, -, -, rfl⟩ | ⟨-, p, rfl, -⟩ | ⟨-, ⟨k, -, -, rfl⟩ | ⟨-, rfl⟩⟩
  · exact .inl herr
  · exact .inr ⟨rfl, rfl, _, rfl⟩
  · exact .inr ⟨rfl, rfl, _, rfl⟩
  · exact .inr ⟨rfl, rfl, _, rfl⟩
  · exact .inr ⟨rfl, rfl, _, rfl⟩

theorem execute_answersOnce {w : Word} {text : List Byte} {s t : State} (h : execute w text s = .next t) :
    s.AnswersOnce t := by
  unfold execute at h
  split at h
  · exact exec_answersOnce h
  · injection h with h
    exact .inl ⟨.illegalCommand, h.symm⟩

/-- Before the last word of a command is taken, nothing is answered (rules R96, R160). -/
theorem run_part_of_command {s : State} {w : Word} {ps : List Word} {rest : List Event} (h : s.AtCommand w ps rest)
    {n : Nat} (hn : n ≤ ps.length) : ∃ u, run n s = .next u ∧ u.rspOut = s.rspOut := by
  obtain ⟨hidle, hframed, hstream⟩ := h
  cases n with
  | zero => exact ⟨s, rfl, rfl⟩
  | succ m =>
    have hlen : (ps.take m).length = m := by
      rw [List.length_take]
      omega
    have hsplit : s.cmdIn = wordEvents (w :: ps.take m) ++ (wordEvents (ps.drop m) ++ rest) := by
      rw [hstream, ← List.append_assoc, wordEvents, wordEvents, wordEvents, ← List.map_append, List.cons_append,
        List.take_append_drop]
    have hrun := run_header hidle (by omega) hsplit
    rw [hlen, Nat.add_comm] at hrun
    exact ⟨_, hrun, rfl⟩

/-- Settles O14: `run_part_of_command` before the last word; then the command is executed (`run_command`), which always
answers (`execute_progress`) and answers once (`execute_answersOnce`). -/
theorem oneResponsePerCommand : Obligations.OneResponsePerCommand := by
  intro s w ps rest hs hcmd
  refine ⟨fun n hn => run_part_of_command hcmd hn, ?_⟩
  obtain ⟨t, ht⟩ := execute_progress (hs.withParser hs.parser rest) w (payloadText w ps)
  have hrun := (run_command hcmd).trans ht
  rcases execute_answersOnce ht with ⟨e, rfl⟩ | ⟨hparser, hcmdIn, d, hrsp⟩
  · have hstatus : (responseWord e.code 0).extractLsb' 28 4 = e.code := statusOf_responseWord _ _
    have hdata : (responseWord e.code 0).extractLsb' 0 16 = 0#16 := dataOf_responseWord _ _
    refine ⟨_, responseWord e.code 0, hrun, hcmd.idle, rfl, rfl, responseWord_middle _ _, ?_, fun _ => ⟨hdata, rfl⟩⟩
    rw [hstatus]
    exact e.code_le
  · have hstatus : (responseWord statusOk d).extractLsb' 28 4 = statusOk := statusOf_responseWord _ _
    refine ⟨t, _, hrun, hparser.trans hcmd.idle, hcmdIn, hrsp, responseWord_middle _ _, ?_,
      fun hne => absurd hstatus hne⟩
    rw [hstatus]
    decide

/-! ## The words of an assembly line -/

/-- Two words with no bit in common, the second below bit `k`, are joined by adding their numbers. -/
theorem toNat_or_of_low {u v : Word} (k : Nat) (hu : u.toNat % 2 ^ k = 0) (hv : v.toNat < 2 ^ k) :
    (u ||| v).toNat = u.toNat + v.toNat := by
  rw [BitVec.toNat_or, ← Nat.div_add_mod u.toNat (2 ^ k), hu, Nat.add_zero, Nat.two_pow_add_eq_or_of_lt hv]

/-- The number of a command word with two byte operands, as rule R98 writes it: an opcode OR the operands. -/
theorem toNat_or_operands {op : Word} (hop : op.toNat % 2 ^ 16 = 0) {a b : Nat} (ha : a ≤ 255) (hb : b ≤ 255) :
    (op ||| BitVec.ofNat 32 a <<< 8 ||| BitVec.ofNat 32 b).toNat = op.toNat + a * 256 + b := by
  have hhigh : (BitVec.ofNat 32 a <<< 8).toNat = a * 256 := by
    rw [BitVec.toNat_shiftLeft, BitVec.toNat_ofNat, Nat.shiftLeft_eq]
    omega
  have hlow : (BitVec.ofNat 32 b).toNat = b := Nat.mod_eq_of_lt (by omega)
  have hjoin : (op ||| BitVec.ofNat 32 a <<< 8).toNat = op.toNat + a * 256 := by
    rw [toNat_or_of_low 16 hop (by omega), hhigh]
  rw [toNat_or_of_low 8 (by omega) (by omega), hjoin, hlow]

/-- A byte operand as a number. -/
theorem toNat_ofNat_byte {a : Nat} (ha : a ≤ 255) : (BitVec.ofNat 8 a).toNat = a := Nat.mod_eq_of_lt (by omega)

/-- The words of the commands with two byte operands (rules R84, R86, R98). -/
theorem encode_two_bytes {a b : Nat} (ha : a ≤ 255) (hb : b ≤ 255) :
    encode (.construct (BitVec.ofNat 8 a) (BitVec.ofNat 8 b)) =
      [0x10000000#32 ||| BitVec.ofNat 32 a <<< 8 ||| BitVec.ofNat 32 b] ∧
    encode (.pset (BitVec.ofNat 8 a) (BitVec.ofNat 8 b)) =
      [0x30000000#32 ||| BitVec.ofNat 32 a <<< 8 ||| BitVec.ofNat 32 b] ∧
    encode (.pclr (BitVec.ofNat 8 a) (BitVec.ofNat 8 b)) =
      [0x40000000#32 ||| BitVec.ofNat 32 a <<< 8 ||| BitVec.ofNat 32 b] := by
  have of_toNat : ∀ {i : Instr} {op : Word}, payload i = [] → op.toNat % 2 ^ 16 = 0 →
      (header i).toNat = op.toNat + (BitVec.ofNat 8 a).toNat * 256 + (BitVec.ofNat 8 b).toNat →
      encode i = [op ||| BitVec.ofNat 32 a <<< 8 ||| BitVec.ofNat 32 b] := by
    intro i op hp hop hw
    rw [toNat_ofNat_byte ha, toNat_ofNat_byte hb, ← toNat_or_operands hop ha hb] at hw
    rw [encode, hp, BitVec.eq_of_toNat_eq hw]
  exact ⟨of_toNat rfl rfl (header_toNat _), of_toNat rfl rfl (header_toNat _), of_toNat rfl rfl (header_toNat _)⟩

/-- The word of RDBYTE (rules R90, R98). -/
theorem encode_rdbyte {k : Nat} (hk : k ≤ 8191) :
    encode (.rdbyte (BitVec.ofNat 13 k)) = [0x60000000#32 ||| BitVec.ofNat 32 k] := by
  have hindex : (BitVec.ofNat 13 k).toNat = k := Nat.mod_eq_of_lt (by omega)
  have hlow : (BitVec.ofNat 32 k).toNat = k := Nat.mod_eq_of_lt (by omega)
  have hword : header (.rdbyte (BitVec.ofNat 13 k)) = 0x60000000#32 ||| BitVec.ofNat 32 k := by
    apply BitVec.eq_of_toNat_eq
    rw [header_toNat, toNat_or_of_low 13 rfl (by omega), hlow]
    simp only [hindex]
    rfl
  rw [encode, hword]
  rfl

/-- The first word of PRINT (rules R87, R98). -/
theorem header_print {text : List Byte} (h : text.length ≤ 255) :
    header (.print text) = 0x50000000#32 ||| BitVec.ofNat 32 text.length := by
  have hlow : (BitVec.ofNat 32 text.length).toNat = text.length := Nat.mod_eq_of_lt (by omega)
  apply BitVec.eq_of_toNat_eq
  rw [header_toNat, toNat_or_of_low 8 rfl (by omega), hlow]
  simp only [Nat.mod_eq_of_lt (show text.length < 256 by omega)]
  rfl

/-- The commands of the lines with two byte operands in range (rules R98, R99). -/
theorem instr_two_bytes {a b : Nat} (ha : a ≤ 255) (hb : b ≤ 255) :
    (AsmLine.construct a b).instr = some (.construct (BitVec.ofNat 8 a) (BitVec.ofNat 8 b)) ∧
    (AsmLine.pset a b).instr = some (.pset (BitVec.ofNat 8 a) (BitVec.ofNat 8 b)) ∧
    (AsmLine.pclr a b).instr = some (.pclr (BitVec.ofNat 8 a) (BitVec.ofNat 8 b)) ∧
    (AsmLine.pixel a b 1).instr = some (.pset (BitVec.ofNat 8 a) (BitVec.ofNat 8 b)) ∧
    (AsmLine.pixel a b 0).instr = some (.pclr (BitVec.ofNat 8 a) (BitVec.ofNat 8 b)) := by
  simp [AsmLine.instr, Instr.pixel, byteOperand_of_le ha, byteOperand_of_le hb]

/-- With a byte operand out of range, these lines are rejected (rule R98). -/
theorem instr_two_bytes_rejected {a b : Nat} (h : 255 < a ∨ 255 < b) (on : Nat) :
    (AsmLine.construct a b).instr = none ∧ (AsmLine.pset a b).instr = none ∧ (AsmLine.pclr a b).instr = none ∧
    (AsmLine.pixel a b on).instr = none := by
  have hoperand : byteOperand a = none ∨ byteOperand b = none := h.imp byteOperand_of_gt byteOperand_of_gt
  rcases hoperand with h | h
  · simp [AsmLine.instr, h]
  · cases ha : byteOperand a <;> simp [AsmLine.instr, h, ha]

/-- The last operand of PIXEL is 0 or 1. -/
theorem instr_pixel_rejected {on : Nat} (h : 1 < on) (a b : Nat) : (AsmLine.pixel a b on).instr = none := by
  have hon : ¬ on ≤ 1 := by omega
  cases ha : byteOperand a <;> cases hb : byteOperand b <;> simp [AsmLine.instr, ha, hb, hon]

/-- A line that stands for a command encodes as that command's words. -/
theorem words_of_instr {l : AsmLine} {i : Instr} (h : l.instr = some i) : l.words = some (encode i) := by
  have hmap : l.instr.map encode = some (encode i) := by rw [h, Option.map_some]
  cases l with
  | blank => cases h
  | word v => cases h
  | _ => exact hmap

/-- A command made from two byte operands is well formed if it is for all bytes. -/
theorem wellFormed_of_two_bytes {a b : Nat} {make : Byte → Byte → Option Instr} {i : Instr}
    (hmake : ∀ x y, make x y = some i → i.WellFormed)
    (h : ((byteOperand a).bind fun x => (byteOperand b).bind fun y => make x y) = some i) : i.WellFormed := by
  obtain ⟨x, -, hx⟩ := Option.bind_eq_some_iff.1 h
  obtain ⟨y, -, hxy⟩ := Option.bind_eq_some_iff.1 hx
  exact hmake x y hxy

/-- The command a line stands for has an encoding (rule R98 rejects a longer text). -/
theorem instr_wellFormed {l : AsmLine} {i : Instr} (h : l.instr = some i) : i.WellFormed := by
  cases l with
  | blank | word v => cases h
  | clear | rdlen | newline => cases h; rfl
  | construct a b | pset a b | pclr a b =>
    refine wellFormed_of_two_bytes (fun x y hxy => ?_) h
    cases hxy
    rfl
  | pixel a b on =>
    refine wellFormed_of_two_bytes (fun x y hxy => ?_) h
    split at hxy <;> cases hxy
    unfold Instr.pixel
    split <;> rfl
  | print bytes =>
    obtain ⟨text, -, htext⟩ := Option.bind_eq_some_iff.1 h
    split at htext <;> cases htext
    exact decide_eq_true ‹_›
  | rdbyte k =>
    rw [AsmLine.instr] at h
    split at h <;> cases h
    rfl

/-- Settles O8: each form's command (`instr_two_bytes`) encodes as the form's words (`words_of_instr`), and those decode
to it (`decode_of_encode_eq`). -/
theorem assembledLineDecodes : Obligations.AssembledLineDecodes := by
  have rejected : ∀ {l : AsmLine}, l.instr = none → l.instr.map encode = none := fun h => by rw [h, Option.map_none]
  refine ⟨fun a b ha hb => ?_, fun a b h => ?_, fun a b on h => rejected (instr_pixel_rejected h a b), rfl, rfl, rfl,
    fun k hk => ?_, fun k hk => ?_, fun v hv => if_pos hv, fun v hv => if_neg (by omega), rfl, fun _ => rfl,
    fun l i h => ⟨encode i, words_of_instr h, decode_of_encode_eq (instr_wellFormed h) rfl⟩⟩
  · obtain ⟨hconstruct, hpset, hpclr, hon, hoff⟩ := instr_two_bytes ha hb
    obtain ⟨econstruct, epset, epclr⟩ := encode_two_bytes ha hb
    rw [words_of_instr hconstruct, words_of_instr hpset, words_of_instr hpclr, words_of_instr hon, words_of_instr hoff,
      econstruct, epset, epclr]
    exact ⟨rfl, rfl, rfl, rfl, rfl⟩
  · obtain ⟨hconstruct, hpset, hpclr, -⟩ := instr_two_bytes_rejected h 0
    refine ⟨rejected hconstruct, rejected hpset, rejected hpclr, fun on => ?_⟩
    obtain ⟨-, -, -, hpixel⟩ := instr_two_bytes_rejected h on
    exact rejected hpixel
  · have hline : (AsmLine.rdbyte k).instr = some (.rdbyte (BitVec.ofNat 13 k)) := if_pos hk
    rw [words_of_instr hline, encode_rdbyte hk]
  · have hline : (AsmLine.rdbyte k).instr = none := if_neg (by omega)
    exact rejected hline

/-! ## The assembler's PRINT -/

theorem instr_print {bytes : List Nat} (hbytes : ∀ b ∈ bytes, b ≤ 255) (hlen : bytes.length ≤ 255) :
    (AsmLine.print bytes).instr = some (.print (bytes.map (BitVec.ofNat 8))) := by
  rw [AsmLine.instr, mapM_byteOperand_of_le hbytes]
  exact if_pos (by rwa [List.length_map])

theorem instr_print_rejected {bytes : List Nat} (h : (∃ b ∈ bytes, 255 < b) ∨ 255 < bytes.length) :
    (AsmLine.print bytes).instr = none := by
  rw [AsmLine.instr]
  by_cases hgt : ∃ b ∈ bytes, 255 < b
  · rw [mapM_byteOperand_of_gt hgt]
    rfl
  · have hlen := h.resolve_left hgt
    rw [mapM_byteOperand_of_le fun b hb => Nat.le_of_not_lt fun hlt => hgt ⟨b, hb, hlt⟩]
    exact if_neg (by rw [List.length_map]; omega)

/-- Settles O56: the words are those of the PRINT (`instr_print`), its payload packed (`packPayload_byte`). -/
theorem assembledPrintWords : Obligations.AssembledPrintWords := by
  intro bytes
  refine ⟨fun hbytes hlen => ?_, fun h => ?_⟩
  · have htext : (bytes.map (BitVec.ofNat 8)).length = bytes.length := List.length_map _
    refine ⟨packPayload (bytes.map (BitVec.ofNat 8)), ?_, ?_, fun i hi => ?_⟩
    · rw [words_of_instr (instr_print hbytes hlen), encode, header_print (htext.trans_le hlen), htext]
      rfl
    · rw [packPayload_length, htext]
    · obtain ⟨p, hp, hbyte⟩ := packPayload_byte _ i hi
      exact ⟨p, hp, hbyte.trans (List.getD_map bytes 0 (BitVec.ofNat 8))⟩
  · show (AsmLine.print bytes).instr.map encode = none
    rw [instr_print_rejected h, Option.map_none]

end Sys2Proof.Machine

/-! PROOFS. The statements about the bitmap buffer (40_bitmap_buffer.md): the coordinate translator, CONSTRUCT and
CLEAR, PSET and PCLR. -/

namespace Sys2Proof.Machine

/-! ## The coordinate translator -/

/-- Settles O26: a row is an 8-bit value, so `y[7:3]` is the whole quotient by 8. -/
theorem pageOfRow : Obligations.PageOfRow := by
  intro y
  have hy : y.toNat < 256 := y.isLt
  have hfield : (y.extractLsb' 3 5).toNat = y.toNat / 8 % 32 := by
    rw [BitVec.extractLsb'_toNat, Nat.shiftRight_eq_div_pow]
  have hpage : pageOf y = y.toNat / 8 := rfl
  exact ⟨hpage, by omega, by omega⟩

/-- Settles O27, by `bitOf_getLsbD`. -/
theorem maskOfRow : Obligations.MaskOfRow :=
  fun y => ⟨rfl, (BitVec.extractLsb'_toNat 0 3 y).symm, bitOf_getLsbD y⟩

/-- Settles O28, by `pageCountOf_eq`: a height from 1 to 255 has 1 to 32 pages. -/
theorem pageCountAndLength : Obligations.PageCountAndLength := by
  refine ⟨fun H hH => ⟨pageCountOf_eq H hH, rfl⟩, fun W H hW hW' hH hH' => ⟨rfl, ?_, ?_⟩, rfl, rfl, rfl, rfl, rfl⟩
  · have hpages : 1 ≤ pageCountOf H := by
      rw [pageCountOf_eq H hH]
      omega
    exact Nat.mul_le_mul hW hpages
  · have hpages : pageCountOf H ≤ 32 := by
      rw [pageCountOf_eq H hH]
      omega
    exact Nat.mul_le_mul hW' hpages

/-- Rule R25's largest buffer: 255 columns of 32 pages. -/
theorem State.bufLen_le {s : State} (hs : s.Inv) : s.bufLen.toNat ≤ 8160 := by
  cases hc : s.constructed with
  | false =>
    obtain ⟨-, -, -, hlen⟩ := hs.geometry.1 hc
    simp [hlen]
  | true =>
    obtain ⟨-, -, hpages, hlen⟩ := hs.geometry.2 hc
    have hw : s.width.toNat < 256 := s.width.isLt
    have hh : s.height.toNat < 256 := s.height.isLt
    rw [hlen]
    exact Nat.mul_le_mul (show s.width.toNat ≤ 255 by omega) (show s.pageCount.toNat ≤ 32 by omega)

/-- A byte under the mask of a row keeps the row's bit alone. -/
theorem and_bitOf_ne_zero_iff (b y : Byte) : b &&& bitOf y ≠ 0#8 ↔ b.getLsbD (y.toNat % 8) = true := by
  have hbit : ∀ k, (b &&& bitOf y).getLsbD k = (b.getLsbD k && decide (k = y.toNat % 8)) := fun k => by
    rw [BitVec.getLsbD_and, bitOf_getLsbD]
  constructor
  · intro hne
    by_contra hoff
    refine hne (BitVec.eq_of_getLsbD_eq fun k _ => ?_)
    rw [hbit]
    by_cases hk : k = y.toNat % 8
    · simpa [hk] using hoff
    · simp [hk]
  · intro hon hzero
    have h := hbit (y.toNat % 8)
    simp [hzero, hon] at h

/-- The mask tells the row within its page. -/
theorem mod_eq_of_bitOf_eq {y y' : Byte} (h : bitOf y' = bitOf y) : y'.toNat % 8 = y.toNat % 8 := by
  have hbit := bitOf_getLsbD y (y'.toNat % 8)
  rw [← h, bitOf_getLsbD] at hbit
  simpa using hbit

/-- Settles O29: the byte is in the buffer (`State.indexOf_lt_of_inRange`), it determines column and page
(`column_page_eq_iff`), and the mask determines the row in the page. -/
theorem translatorIsExact : Obligations.TranslatorIsExact := by
  intro s x y hs hr
  have hlt := (State.indexOf_lt_of_inRange hs hr).2
  have hmax := State.bufLen_le hs
  refine ⟨hlt, by omega, and_bitOf_ne_zero_iff _ _, fun x' y' hr' hindex hbit => ?_⟩
  obtain ⟨hcol, (hpage : y'.toNat / 8 = y.toNat / 8)⟩ :=
    (column_page_eq_iff ((s.inRange_iff x' y').1 hr').1 ((s.inRange_iff x y).1 hr).1).1 hindex
  have hrow := mod_eq_of_bitOf_eq hbit
  exact ⟨BitVec.eq_of_toNat_eq hcol, BitVec.eq_of_toNat_eq (by omega)⟩

/-! ## Reserved bits -/

/-- Bits `[27:16]` are reserved in every format: a word with one of them set is in no row of the opcode table (rules R83
to R91). -/
theorem legalWord_eq_false_of_reserved {w : Word} (hres : w.extractLsb' 16 12 ≠ 0#12) : legalWord w = false := by
  rw [Ne, field_eq_iff, BitVec.toNat_ofNat] at hres
  rw [← Bool.not_eq_true, legalWord_iff]
  omega

/-- A CLEAR word with a bit below its opcode set is in no row of the opcode table (rules R83, R85). -/
theorem legalWord_eq_false_of_reserved_clear {w : Word} (hop : opField w = 0x2#4) (hres : w.extractLsb' 0 28 ≠ 0#28) :
    legalWord w = false := by
  rw [Ne, field_eq_iff, BitVec.toNat_ofNat] at hres
  rw [← BitVec.toNat_inj, opField_toNat, BitVec.toNat_ofNat] at hop
  rw [← Bool.not_eq_true, legalWord_iff]
  omega

/-! ## CONSTRUCT and CLEAR -/

theorem execConstruct_of_ne_zero {w h : Byte} (hw : w ≠ 0#8) (hh : h ≠ 0#8) (s : State) :
    exec (.construct w h) s = .next ((s.newSession w h).answered 0x00000000#32) :=
  if_neg (not_or.2 ⟨hw, hh⟩)

/-- The registers of a new session hold the page count and the length untruncated. They do not depend on the state
before, so they are those of a session made from reset, which has the invariant. -/
theorem State.newSession_registers (s : State) {w h : Byte} (hw : w ≠ 0#8) (hh : h ≠ 0#8) :
    (s.newSession w h).pageCount.toNat = pageCountOf h.toNat ∧
    (s.newSession w h).bufLen.toNat = w.toNat * pageCountOf h.toNat := by
  obtain ⟨-, -, hpages, hlen⟩ := (State.newSession_inv invariantAtReset hw hh 0#32).geometry.2 rfl
  have hcount := hpages.trans (pageCountOf_byte hh).2.1.symm
  exact ⟨hcount, hlen.trans (congrArg (w.toNat * ·) hcount)⟩

/-- A buffer with no cell listed exports zeros. -/
theorem State.exportView_of_pixels_nil {s : State} (h : s.pixels = []) :
    s.exportView = List.replicate s.bufLen.toNat 0#8 := by
  rw [State.exportView, h, List.map_congr_left fun a _ => Memory.read_nil a, List.map_const', List.length_range]
  rfl

/-- Settles O30: a new session lists no cell, and its registers hold the exact geometry (`State.newSession_registers`). -/
theorem constructCreatesBuffer : Obligations.ConstructCreatesBuffer := by
  refine fun s w h => ⟨fun hw hh => ?_, fun hzero => if_pos hzero, fun word text _ hres => ?_⟩
  · obtain ⟨hpages, hlen⟩ := s.newSession_registers hw hh
    have hview : (s.newSession w h).exportView = List.replicate (w.toNat * pageCountOf h.toNat) 0#8 :=
      hlen ▸ State.exportView_of_pixels_nil rfl
    exact ⟨_, execConstruct_of_ne_zero hw hh s, rfl, rfl, rfl, hpages, hlen, hview, Memory.read_nil,
      rfl, rfl, rfl, rfl⟩
  · exact execute_of_not_legal (legalWord_eq_false_of_reserved hres) text s

/-- Writing what an unlisted byte holds into `[0, n)` drops the cells there. -/
theorem Memory.fill_unlisted (m : Memory) (n : Nat) :
    m.fill 0 n (fun _ => unlisted) = m.filter fun c => decide (n ≤ c.1) := by
  simp [Memory.fill, Memory.cell]

theorem State.clearPixels_idem (s : State) : s.clearPixels.clearPixels = s.clearPixels := by
  have hcells : ∀ m : Memory,
      (m.fill 0 s.bufLen.toNat fun _ => 0#8) = m.filter fun c => decide (s.bufLen.toNat ≤ c.1) :=
    fun m => m.fill_unlisted _
  simp only [State.clearPixels, hcells, List.filter_filter, Bool.and_self]

theorem execClear_of_constructed {s : State} (hc : s.constructed = true) :
    exec .clear s = .next (s.clearPixels.answered 0x00000000#32) :=
  s.whenConstructed_of_constructed hc _

/-- Settles O31: CLEAR is a range write of zeros (`Memory.read_fill`), and the range write is idempotent. -/
theorem clearZeroesBuffer : Obligations.ClearZeroesBuffer := by
  refine fun s => ⟨fun hc => ⟨_, execClear_of_constructed hc, rfl, fun a ha => ?_, fun a ha => ?_, ?_⟩,
    fun hc => s.whenConstructed_of_not hc _, fun word text hop hres =>
    execute_of_not_legal (legalWord_eq_false_of_reserved_clear hop hres) text s⟩
  · rw [State.answered_pixels, State.clearPixels_pixels, Memory.read_fill, if_pos (by omega)]
  · rw [State.answered_pixels, State.clearPixels_pixels, Memory.read_fill, if_neg (by omega)]
  · rw [execClear_of_constructed (s := s.clearPixels.answered 0#32) hc]
    exact congrArg (fun u : State => Host.Outcome.next ((State.answered u 0#32).answered 0#32)) s.clearPixels_idem

/-! ## PSET and PCLR -/

/-- The reading rule of a PSET or PCLR in range: the byte of the pixel has the row's bit on or off, every other byte is
as before, and nothing else but the response changes. -/
theorem exec_pixel_effect {s : State} (hs : s.Inv) {x y : Byte} (h : s.inRange x y = true) (on : Bool) :
    ∃ t, exec (Instr.pixel x y on) s = .next t ∧ t.Inv ∧
      t = { s with pixels := t.pixels, rspOut := s.rspOut ++ [0x00000000#32] } ∧
      ∀ a, t.pixels.read a =
        if a = s.indexOf x y then setRowBit on y (s.pixels.read (s.indexOf x y)) else s.pixels.read a :=
  ⟨_, exec_pixel_of_inRange hs h on,
    (State.WritesBuffer.of_write hs (State.indexOf_lt_of_inRange hs h).2 _).inv hs, rfl,
    fun a => Memory.read_write hs.pixels.1 _ _ a⟩

theorem exec_pixel_outOfRange {s : State} (hc : s.constructed = true) {x y : Byte}
    (h : s.width.toNat ≤ x.toNat ∨ s.height.toNat ≤ y.toNat) (on : Bool) :
    exec (Instr.pixel x y on) s = .next (s.answered 0x20000000#32) := by
  have hr : ¬ s.inRange x y = true := by
    rw [s.inRange_iff]
    omega
  cases on <;> exact (s.whenConstructed_of_constructed hc _).trans (if_neg hr)

theorem exec_pixel_notConstructed {s : State} (hc : s.constructed = false) (x y : Byte) (on : Bool) :
    exec (Instr.pixel x y on) s = .next (s.answered 0x40000000#32) := by
  cases on <;> exact s.whenConstructed_of_not hc _

/-- Settles O32: `exec_pixel_effect` with the bit on. -/
theorem psetTurnsPixelOn : Obligations.PsetTurnsPixelOn := by
  refine fun s x y hs => ⟨fun _ hx hy => ?_, fun hc h => exec_pixel_outOfRange hc h true,
    fun hc => exec_pixel_notConstructed hc x y true, fun word text _ hres =>
    execute_of_not_legal (legalWord_eq_false_of_reserved hres) text s⟩
  obtain ⟨t, ht, -, hframe, hread⟩ := exec_pixel_effect hs ((s.inRange_iff x y).2 ⟨hx, hy⟩) true
  exact ⟨t, ht, hframe, hread⟩

/-- PCLR's byte, with the complement of rule R10. -/
theorem setRowBit_false_eq_xor (y b : Byte) : setRowBit false y b = b &&& (0xFF#8 ^^^ bitOf y) := by
  rw [BitVec.xor_comm]
  exact congrArg (b &&& ·) BitVec.xor_allOnes.symm

/-- Settles O33: `exec_pixel_effect` with the bit off. -/
theorem pclrTurnsPixelOff : Obligations.PclrTurnsPixelOff := by
  refine fun s x y hs => ⟨fun _ hx hy => ?_, fun hc h => exec_pixel_outOfRange hc h false,
    fun hc => exec_pixel_notConstructed hc x y false, fun word text _ hres =>
    execute_of_not_legal (legalWord_eq_false_of_reserved hres) text s⟩
  obtain ⟨t, ht, -, hframe, hread⟩ := exec_pixel_effect hs ((s.inRange_iff x y).2 ⟨hx, hy⟩) false
  rw [setRowBit_false_eq_xor] at hread
  exact ⟨t, ht, hframe, hread⟩

/-- PIXEL keeps every bit but that of its pixel, whatever it answers (rule R134). -/
theorem exec_pixel_other_bit {s t : State} (hs : s.Inv) {x y : Byte} {on : Bool} {a b : Nat}
    (h : exec (Instr.pixel x y on) s = .next t) (hother : ¬ (a = s.indexOf x y ∧ b = y.toNat % 8)) :
    (t.pixels.read a).getLsbD b = (s.pixels.read a).getLsbD b := by
  by_cases hr : s.inRange x y = true
  · by_cases hb : b < 8
    · rw [(exec_pixel_getLsbD hs hr h).2 a b hb, if_neg hother]
    · rw [BitVec.getLsbD_of_ge _ _ (by omega), BitVec.getLsbD_of_ge _ _ (by omega)]
  · obtain ⟨e, he⟩ := exec_pixel_of_not_inRange hr on
    rw [he, State.raise_eq] at h
    injection h with h
    subst h
    rfl

/-- Settles O34, by `exec_pixel_other_bit`. -/
theorem pixelCommandsTouchOneBit : Obligations.PixelCommandsTouchOneBit := by
  intro s t x y a b hs h hother
  rcases h with h | h
  · exact exec_pixel_other_bit (on := true) hs h hother
  · exact exec_pixel_other_bit (on := false) hs h hother

/-! ## PSET, then PCLR -/

theorem setRowBit_setRowBit (on on' : Bool) (y b : Byte) : setRowBit on y (setRowBit on' y b) = setRowBit on y b := by
  refine BitVec.eq_of_getLsbD_eq fun k hk => ?_
  simp only [setRowBit_getLsbD _ _ _ hk]
  split <;> rfl

/-- Setting a bit to `on` changes nothing exactly when it is `on` already. -/
theorem setRowBit_eq_self_iff (on : Bool) (y b : Byte) : setRowBit on y b = b ↔ b.getLsbD (y.toNat % 8) = on := by
  constructor
  · intro h
    rw [← h, setRowBit_getLsbD _ _ _ (Nat.mod_lt _ (by decide)), if_pos rfl]
  · intro h
    refine BitVec.eq_of_getLsbD_eq fun k hk => ?_
    rw [setRowBit_getLsbD _ _ _ hk]
    split
    · rename_i hrow
      rw [hrow, h]
    · rfl

/-- Settles O36: the later command decides the bit (`setRowBit_setRowBit`), and canonical buffers that read alike are
equal. -/
theorem setThenClear : Obligations.SetThenClear := by
  intro s x y hs _ hr
  obtain ⟨t, ht, htinv, hframe, htread⟩ := exec_pixel_effect hs hr true
  have hrange : t.inRange x y = s.inRange x y := by rw [hframe]; rfl
  have hindex : t.indexOf x y = s.indexOf x y := by rw [hframe]; rfl
  obtain ⟨u, hu, huinv, -, huread⟩ := exec_pixel_effect htinv (hrange.trans hr) false
  have hread : ∀ a, u.pixels.read a =
      if a = s.indexOf x y then setRowBit false y (s.pixels.read a) else s.pixels.read a := by
    intro a
    rw [huread, hindex, htread, if_pos rfl, setRowBit_setRowBit]
    split
    · rename_i ha
      rw [ha]
    · rename_i ha
      rw [htread, if_neg ha]
  have hrestored : u.pixels = s.pixels ↔
      setRowBit false y (s.pixels.read (s.indexOf x y)) = s.pixels.read (s.indexOf x y) := by
    constructor
    · intro h
      have hbyte := hread (s.indexOf x y)
      rw [h, if_pos rfl] at hbyte
      exact hbyte.symm
    · intro h
      refine Memory.ext_of_wf huinv.pixels.1 hs.pixels.1 fun a => ?_
      rw [hread]
      split
      · rename_i ha
        rw [ha, h]
      · rfl
  exact ⟨t, u, ht, hu, hread, hrestored.trans (setRowBit_eq_self_iff _ _ _)⟩

end Sys2Proof.Machine

/-! PROOFS. The statements about the text renderer (41_text_renderer.md): how the parser takes a PRINT, which characters
it renders and as what, the scrolling line, and that a command depends on the buffer alone. -/

namespace Sys2Proof.Machine

/-! ## The parser -/

/-- A word that ends its command at once: no PRINT header, or one with an empty text. -/
theorem receiveWord_command {s : State} (hp : s.parser = .idle) {w : Word}
    (h : opField w = 0x5#4 → textLength w = 0) : receiveWord w s = execute w [] s := by
  unfold receiveWord
  rw [hp]
  by_cases hop : opField w = 0x5#4
  · exact (if_pos hop).trans (if_pos (h hop))
  · exact if_neg hop

theorem receiveWord_header {s : State} (hp : s.parser = .idle) {w : Word} (hop : opField w = 0x5#4)
    (hlen : textLength w ≠ 0) :
    receiveWord w s = .next { s with parser := .payload w ((textLength w + 3) / 4) [] } := by
  unfold receiveWord
  rw [hp, ← payloadWords_of_print hop]
  exact (if_pos hop).trans (if_neg hlen)

theorem receiveWord_last {s : State} {hdr : Word} {text : List Byte} (hp : s.parser = .payload hdr 1 text) (w : Word) :
    receiveWord w s = execute hdr ((text ++ payloadBytes w).take (textLength hdr)) { s with parser := .idle } := by
  unfold receiveWord
  rw [hp]
  rfl

theorem receiveWord_payload {s : State} {hdr : Word} {r : Nat} {text : List Byte} (hp : s.parser = .payload hdr r text)
    (hr : r ≠ 1) (w : Word) :
    receiveWord w s = .next { s with parser := .payload hdr (r - 1) (text ++ payloadBytes w) } := by
  unfold receiveWord
  rw [hp]
  exact if_neg hr

/-- Settles O11: a word on the stream is received with the rest of the stream left (`step_word`), in one of the ways of
`receiveWord`. -/
theorem parserMoves : Obligations.ParserMoves := by
  intro s w rest hc
  rw [step_word hc]
  refine ⟨fun hp hop => ?_, fun hp _ hlen => ?_, fun hp hop hlen => ?_, fun hdr text hp => ?_,
    fun hdr r text hp hr => ?_⟩
  · exact receiveWord_command (s := { s with cmdIn := rest }) hp fun h => absurd h hop
  · exact receiveWord_command (s := { s with cmdIn := rest }) hp fun _ => congrArg BitVec.toNat hlen
  · exact receiveWord_header (s := { s with cmdIn := rest }) hp hop fun h => hlen (BitVec.eq_of_toNat_eq h)
  · exact receiveWord_last (s := { s with cmdIn := rest }) hp w
  · exact receiveWord_payload (s := { s with cmdIn := rest }) hp (by omega) w

/-! ## The rendered characters -/

/-- Settles O37: below the position of the first null byte no byte is null, and the byte at it is. -/
theorem renderCountStopsAtNull : Obligations.RenderCountStopsAtNull := by
  intro t
  have hmin : renderCount t = min (min t.length 25) (t.findIdx fun c => c == 0#8) := rfl
  refine ⟨by omega, by omega, fun i hi hnull => ?_, fun h25 hlen => ?_⟩
  · obtain ⟨hlt, hnull⟩ := List.getElem?_eq_some_iff.1 hnull
    have hbefore := List.not_of_lt_findIdx (p := fun c => c == 0#8) (xs := t) (i := i) (by omega)
    simp [hnull] at hbefore
  · have hat : t.findIdx (fun c => c == 0#8) = renderCount t := by omega
    have hnull := List.findIdx_getElem (p := fun c => c == 0#8) (xs := t) (w := by omega)
    simp only [hat, beq_iff_eq] at hnull
    exact List.getElem?_eq_some_iff.2 ⟨hlen, hnull⟩

theorem renderCount_le_length (t : List Byte) : renderCount t ≤ t.length :=
  (renderCountStopsAtNull t).2.1

theorem length_take_renderCount (t : List Byte) : (t.take (renderCount t)).length = renderCount t :=
  List.length_take_of_le (renderCount_le_length t)

/-- The facts of `renderCountStopsAtNull` leave one value for the render count. -/
theorem renderCount_eq_of {t : List Byte} {k : Nat} (h25 : k ≤ 25) (hlen : k ≤ t.length)
    (hbefore : ∀ i, i < k → t[i]? ≠ some 0#8) (hat : k < 25 → k < t.length → t[k]? = some 0#8) : renderCount t = k := by
  obtain ⟨hc25, hclen, hcbefore, hcat⟩ := renderCountStopsAtNull t
  rcases Nat.lt_trichotomy (renderCount t) k with hlt | heq | hgt
  · exact absurd (hcat (by omega) (by omega)) (hbefore _ hlt)
  · exact heq
  · exact absurd (hat (by omega) (by omega)) (hcbefore _ hgt)

/-- A text of the rendered characters alone has the same render count. -/
theorem renderCount_take (t : List Byte) : renderCount (t.take (renderCount t)) = renderCount t := by
  obtain ⟨h25, -, hbefore, -⟩ := renderCountStopsAtNull t
  have hlen := length_take_renderCount t
  refine renderCount_eq_of h25 hlen.ge (fun i hi => ?_) fun _ hlt => absurd hlt (by omega)
  rw [List.getElem?_take_of_lt hi]
  exact hbefore i hi

/-- The character at the render count still stops the count, whatever follows it. -/
theorem renderCount_take_succ_append {t : List Byte} (hlt : renderCount t < t.length) (tail : List Byte) :
    renderCount (t.take (renderCount t + 1) ++ tail) = renderCount t := by
  obtain ⟨h25, -, hbefore, hat⟩ := renderCountStopsAtNull t
  have hlen : (t.take (renderCount t + 1)).length = renderCount t + 1 := List.length_take_of_le hlt
  have hchar : ∀ i, i ≤ renderCount t → (t.take (renderCount t + 1) ++ tail)[i]? = t[i]? := fun i hi => by
    rw [List.getElem?_append_left (by omega), List.getElem?_take_of_lt (by omega)]
  refine renderCount_eq_of h25 ?_ (fun i hi => ?_) fun hlt25 _ => ?_
  · rw [List.length_append]
    omega
  · rw [hchar i hi.le]
    exact hbefore i hi
  · rw [hchar _ le_rfl]
    exact hat hlt25 hlt

/-- PRINT looks at its text through the rendered characters and their number alone (rule R167). -/
theorem exec_print_congr {t t' : List Byte} (hcount : renderCount t' = renderCount t)
    (htake : t'.take (renderCount t) = t.take (renderCount t)) (s : State) : exec (.print t') s = exec (.print t) s := by
  simp only [exec, execPrint, hcount, htake]

/-- Settles O38: both shorter texts have the render count and the rendered characters of the whole. -/
theorem charactersPastRenderCountIgnored : Obligations.CharactersPastRenderCountIgnored := by
  refine fun s t tail => ⟨exec_print_congr (renderCount_take t) ?_ s, fun hlt =>
    exec_print_congr (renderCount_take_succ_append hlt tail) ?_ s⟩
  · rw [List.take_take, Nat.min_self]
  · have hlen : (t.take (renderCount t + 1)).length = renderCount t + 1 := List.length_take_of_le hlt
    rw [List.take_append_of_le_length (by omega), List.take_take, Nat.min_eq_left (by omega)]

/-! ## The glyphs -/

theorem gbyte_of_glyphOf {cfg : Config} {c : Byte} {g : Glyph} (h : glyphOf cfg.glyphTable c = some g) (j : Nat) :
    gbyte cfg c j = glyphColumn g j := by
  rw [gbyte, h]

theorem gbyte_of_not_isDefined {cfg : Config} {c : Byte} (h : isDefined cfg c = false) (j : Nat) :
    gbyte cfg c j = 0#8 := by
  rw [isDefined, Option.isSome_eq_false_iff, Option.isNone_iff_eq_none] at h
  rw [gbyte, h]

/-- The columns of a glyph, from the left. -/
theorem glyphColumn_eq_getD (g : Glyph) {j : Nat} (hj : j < 5) :
    glyphColumn g j = [g.c0, g.c1, g.c2, g.c3, g.c4].getD j 0#8 := by
  match j, hj with
  | 0, _ | 1, _ | 2, _ | 3, _ | 4, _ => rfl

/-- Settles O39. -/
theorem glyphByte : Obligations.GlyphByte := by
  refine fun cfg c j hj => ⟨fun g hg => ⟨?_, ?_⟩, fun h => gbyte_of_not_isDefined h j⟩
  · rw [isDefined, hg, Option.isSome_some]
  · rw [gbyte_of_glyphOf hg, glyphColumn_eq_getD g hj]

/-! ## A PRINT whose checks pass -/

/-- Column `col` of the line that a PRINT of `text` renders: the glyph columns of the rendered characters, then blank
(rules R163, R165, R166). -/
def lineColumn (cfg : Config) (text : List Byte) (col : Nat) : Byte :=
  if col < 5 * renderCount text then gbyte cfg (text.getD (col / 5) 0#8) (col % 5) else 0#8

/-- `t` is `s` after a PRINT of `text` whose checks passed (rule R167): one response and the pixels alone are new; every
byte before the bottom page is the byte one page on, and the bottom page holds the line. -/
structure State.Printed (s : State) (text : List Byte) (t : State) : Prop where
  frame : t = { s with pixels := t.pixels, rspOut := s.rspOut ++ [0x00000000#32] }
  scrolled : ∀ a, a < s.bufLen.toNat - s.width.toNat → t.pixels.read a = s.pixels.read (a + s.width.toNat)
  rendered : ∀ col, col < s.width.toNat →
    t.pixels.read (s.bufLen.toNat - s.width.toNat + col) = lineColumn s.config text col
  outside : ∀ a, s.bufLen.toNat ≤ a → t.pixels.read a = s.pixels.read a

/-- `printLine` of the rendered characters is that PRINT, by `State.printLine_read`. -/
theorem State.printLine_printed {s : State} (hs : s.Inv) (text : List Byte) :
    s.Printed text ((s.printLine (text.take (renderCount text))).answered 0x00000000#32) := by
  have hpage := State.width_le_bufLen hs
  have hread := State.printLine_read hs.pixels.1 (text.take (renderCount text))
  have hbase : s.bottomBase = s.bufLen.toNat - s.width.toNat := rfl
  rw [length_take_renderCount, hbase] at hread
  refine ⟨?_, fun a ha => ?_, fun col hcol => ?_, fun a ha => ?_⟩
  · rw [State.printLine_frame]
    rfl
  · rw [State.answered_pixels, hread, if_neg (by omega), if_pos ha]
  · rw [State.answered_pixels, hread, if_pos (by omega), Nat.add_sub_cancel_left, lineColumn]
    by_cases hchar : col < 5 * renderCount text
    · rw [if_pos hchar, if_pos hchar, List.getD_eq_getElem?_getD, List.getD_eq_getElem?_getD,
        List.getElem?_take_of_lt (by omega)]
    · rw [if_neg hchar, if_neg hchar]
  · rw [State.answered_pixels, hread, if_neg (by omega), if_neg (by omega)]

/-- PRINT in a state of the invariant that holds a buffer: its checks in the order of rule R167; the bottom page is
always inside the buffer. -/
theorem exec_print_of_constructed {s : State} (hs : s.Inv) (hc : s.constructed = true) (text : List Byte) :
    exec (.print text) s =
      if s.config.printGeometry = .strict ∧ s.irregularGeometry = true then .next (s.answered 0x60000000#32)
      else if s.config.undefGlyph = .fault ∧ s.undefinedIn (text.take (renderCount text)) = true then
        .next (s.answered 0x30000000#32)
      else if s.config.narrowLine = .fault ∧ s.width.toNat < 5 * renderCount text then .next (s.answered 0x20000000#32)
      else .next ((s.printLine (text.take (renderCount text))).answered 0x00000000#32) := by
  have hpage : ¬ s.bufLen.toNat < s.width.toNat := Nat.not_lt.2 (State.width_le_bufLen hs)
  simp only [exec, execPrint, s.whenConstructed_of_constructed hc, if_neg hpage]
  rfl

theorem State.irregularGeometry_iff (s : State) :
    s.irregularGeometry = true ↔ s.height.toNat % 8 ≠ 0 ∨ s.pageCount.toNat < 8 := by
  simp [State.irregularGeometry]

theorem State.undefinedIn_take_iff (s : State) (text : List Byte) (k : Nat) :
    s.undefinedIn (text.take k) = true ↔ ∃ i c, i < k ∧ text[i]? = some c ∧ isDefined s.config c = false := by
  simp only [State.undefinedIn, List.any_eq_true, Bool.not_eq_true', List.mem_iff_getElem?, List.getElem?_take,
    Option.ite_none_right_eq_some]
  constructor
  · rintro ⟨c, ⟨i, hik, hi⟩, hc⟩
    exact ⟨i, c, hik, hi, hc⟩
  · rintro ⟨i, c, hik, hi, hc⟩
    exact ⟨c, ⟨i, hik, hi⟩, hc⟩

/-- Bits `[27:8]` of a PRINT header are reserved: a PRINT header with one of them set is in no row of the opcode table
(rules R83, R87). -/
theorem legalWord_eq_false_of_reserved_print {w : Word} (hop : opField w = 0x5#4) (hres : w.extractLsb' 8 20 ≠ 0#20) :
    legalWord w = false := by
  rw [Ne, field_eq_iff, BitVec.toNat_ofNat] at hres
  rw [← BitVec.toNat_inj, opField_toNat, BitVec.toNat_ofNat] at hop
  rw [← Bool.not_eq_true, legalWord_iff]
  omega

/-- Settles O40: the checks one after another (`exec_print_of_constructed`), and the line (`State.printLine_printed`). -/
theorem printScrollsAndRenders : Obligations.PrintScrollsAndRenders := by
  intro s text hs strictFails glyphFails widthFails
  have hstrict : s.config.printGeometry = .strict ∧ s.irregularGeometry = true ↔ strictFails :=
    and_congr_right fun _ => s.irregularGeometry_iff
  have hglyph : s.config.undefGlyph = .fault ∧ s.undefinedIn (text.take (renderCount text)) = true ↔ glyphFails :=
    and_congr_right fun _ => s.undefinedIn_take_iff text _
  have hprint := fun hc => exec_print_of_constructed hs hc text
  refine ⟨fun hc h1 h2 h3 => ?_, fun hc h1 h2 h3 => ?_, fun hc h1 h2 => ?_, fun hc h1 => ?_, fun hc => ?_,
    fun word hop hres => ?_⟩
  · obtain ⟨hframe, hscrolled, hrendered, houtside⟩ := State.printLine_printed hs text
    refine ⟨_, ?_, hframe, hscrolled, hrendered, houtside⟩
    rw [hprint hc, if_neg (mt hstrict.1 h1), if_neg (mt hglyph.1 h2), if_neg h3]
  · rw [hprint hc, if_neg (mt hstrict.1 h1), if_neg (mt hglyph.1 h2), if_pos h3]
  · rw [hprint hc, if_neg (mt hstrict.1 h1), if_pos (hglyph.2 h2)]
  · rw [hprint hc, if_pos (hstrict.2 h1)]
  · exact s.whenConstructed_of_not hc _
  · exact execute_of_not_legal (legalWord_eq_false_of_reserved_print hop hres) text s

/-! ## A series of successful PRINTs -/

/-- An error is not answered 0x00000000. -/
theorem responseWord_error_ne_zero (e : CommandError) : responseWord e.code 0 ≠ 0x00000000#32 := by
  cases e <;> decide

/-- A PRINT that answers 0x00000000 has printed its line, and keeps the invariant. -/
theorem printed_of_exec {s t : State} {text : List Byte} (hs : s.Inv) (h : exec (.print text) s = .next t)
    (hok : s.Responds t [0x00000000#32]) : s.Printed text t ∧ t.Inv := by
  have hprinted : s.Printed text t := by
    rcases exec_cases h with ⟨e, rfl⟩ | ⟨a, b, hi, -⟩ | ⟨-, p, rfl, hp⟩ | ⟨-, ⟨k, hi, -⟩ | ⟨hi, -⟩⟩
    · have hzero : responseWord e.code 0 = 0x00000000#32 := by simpa [State.Responds] using hok
      exact absurd hzero (responseWord_error_ne_zero e)
    · cases hi
    · rcases hp with ⟨hi, -⟩ | ⟨x, y, hi, -⟩ | ⟨x, y, hi, -⟩ | ⟨text', hi, -, rfl⟩ <;> cases hi
      rw [← State.printLine_frame]
      exact State.printLine_printed hs text
    · cases hi
    · cases hi
  rcases exec_effect hs h with ⟨a, b, hi, -⟩ | hwrites
  · cases hi
  · exact ⟨hprinted, hwrites.inv hs⟩

theorem printsSucceed_cons {s t : State} {text : List Byte} {texts : List (List Byte)} (hs : s.Inv)
    (h : PrintsSucceed (text :: texts) s t) : ∃ u, s.Printed text u ∧ u.Inv ∧ PrintsSucceed texts u t := by
  obtain ⟨u, hu, hok, hrest⟩ := h
  obtain ⟨hprinted, hinv⟩ := printed_of_exec hs hu hok
  exact ⟨u, hprinted, hinv, hrest⟩

theorem printed_of_printsSucceed {s t : State} {text : List Byte} (hs : s.Inv) (h : PrintsSucceed [text] s t) :
    s.Printed text t ∧ t.Inv := by
  obtain ⟨u, hprinted, hinv, rfl⟩ := printsSucceed_cons hs h
  exact ⟨hprinted, hinv⟩

/-- Rule R25, constructed or not. -/
theorem State.bufLen_eq {s : State} (hs : s.Inv) : s.bufLen.toNat = s.pageCount.toNat * s.width.toNat := by
  cases hc : s.constructed with
  | false =>
    obtain ⟨hw, -, -, hlen⟩ := hs.geometry.1 hc
    simp [hw, hlen]
  | true =>
    obtain ⟨-, -, -, hlen⟩ := hs.geometry.2 hc
    rw [hlen, Nat.mul_comm]

/-- Rule R168 after several PRINTs: a byte is the old byte as many pages on, while the old one lies in the buffer. -/
theorem printsSucceed_read {s t : State} {texts : List (List Byte)} (hs : s.Inv) (h : PrintsSucceed texts s t) {a : Nat}
    (ha : a + texts.length * s.width.toNat < s.bufLen.toNat) :
    t.pixels.read a = s.pixels.read (a + texts.length * s.width.toNat) := by
  induction texts generalizing s with
  | nil =>
    obtain rfl : t = s := h
    simp
  | cons text texts ih =>
    obtain ⟨u, ⟨hframe, hscrolled, -, -⟩, hinv, hrest⟩ := printsSucceed_cons hs h
    have hw : u.width = s.width := by rw [hframe]
    have hlen : u.bufLen = s.bufLen := by rw [hframe]
    rw [List.length_cons, Nat.succ_mul, ← Nat.add_assoc] at ha ⊢
    have hread := ih hinv hrest (by rw [hw, hlen]; omega)
    rw [hread, hw, hscrolled _ (by omega)]

/-- Settles O41: a pixel eight rows lower is the same bit of the byte one page on. -/
theorem pagesScrollUp : Obligations.PagesScrollUp := by
  intro s t text col row hs h hcol hrow
  have hw : t.width = s.width := by rw [(printed_of_printsSucceed hs h).1.frame]
  have hpages : (row / 8 + 2) * s.width.toNat ≤ s.pageCount.toNat * s.width.toNat :=
    Nat.mul_le_mul_right _ (by omega)
  rw [← State.bufLen_eq hs, Nat.add_mul] at hpages
  have hread := printsSucceed_read hs h (a := col + row / 8 * s.width.toNat)
    (by rw [List.length_singleton]; omega)
  have haddr : col + (row + 8) / 8 * s.width.toNat = col + row / 8 * s.width.toNat + 1 * s.width.toNat := by
    rw [Nat.add_div_right _ (by decide), Nat.succ_mul]
    omega
  have hbit : (row + 8) % 8 = row % 8 := Nat.add_mod_right _ _
  simp only [State.pixelAt, pageRows]
  rw [hw, hread, haddr, hbit, List.length_singleton]

/-- Settles O42: the line stands in the bottom page after its own PRINT, and every further one moves it up one page
(`printsSucceed_read`). -/
theorem linesMoveUpOnePagePerPrint : Obligations.LinesMoveUpOnePagePerPrint := by
  intro s t u text texts col hs h hrest hm hcol
  obtain ⟨⟨hframe, -, hrendered, -⟩, hinv⟩ := printed_of_printsSucceed hs h
  have hw : t.width = s.width := by rw [hframe]
  have hlen : t.bufLen = s.bufLen := by rw [hframe]
  obtain ⟨p, hp⟩ : ∃ p, s.pageCount.toNat = p + texts.length + 1 := ⟨s.pageCount.toNat - 1 - texts.length, by omega⟩
  have hbuf : s.bufLen.toNat = p * s.width.toNat + texts.length * s.width.toNat + s.width.toNat := by
    rw [State.bufLen_eq hs, hp, Nat.succ_mul, Nat.add_mul]
  have hread := printsSucceed_read hinv hrest (a := p * s.width.toNat + col) (by rw [hw, hlen]; omega)
  have hbottom : p * s.width.toNat + col + texts.length * t.width.toNat = s.bufLen.toNat - s.width.toNat + col := by
    rw [hw]
    omega
  have hpage : s.pageCount.toNat - 1 - texts.length = p := by omega
  rw [hpage, hread, hbottom]
  exact hrendered col hcol

/-! ## The capacity: old pixels disappear -/

/-- The last `n` bytes of the buffer are alike in both states. -/
def State.AgreesOnLast (s s' : State) (n : Nat) : Prop :=
  ∀ a, a < s.bufLen.toNat → s.bufLen.toNat ≤ a + n → s.pixels.read a = s'.pixels.read a

/-- One PRINT on two buffers of one geometry and configuration makes one more page alike: the bottom page is, and the
others were one page on. -/
theorem State.Printed.agreesOnLast {s s' t t' : State} {text : List Byte} {n : Nat} (h : s.Printed text t)
    (h' : s'.Printed text t') (hsame : s.SameBuffer { s' with pixels := s.pixels }) (hagree : s.AgreesOnLast s' n) :
    t.AgreesOnLast t' (s.width.toNat + n) := by
  have hw : s'.width = s.width := hsame.width.symm
  have hlen : s'.bufLen = s.bufLen := hsame.bufLen.symm
  have hconfig : s'.config = s.config := hsame.config.symm
  have htlen : t.bufLen = s.bufLen := by rw [h.frame]
  intro a ha hlast
  rw [htlen] at ha hlast
  by_cases habove : a < s.bufLen.toNat - s.width.toNat
  · rw [h.scrolled a habove, h'.scrolled a (by rw [hw, hlen]; exact habove), hw]
    exact hagree _ (by omega) (by omega)
  · obtain ⟨col, rfl⟩ : ∃ col, a = s.bufLen.toNat - s.width.toNat + col := Nat.exists_eq_add_of_le (by omega)
    have hcol : col < s.width.toNat := by omega
    have hrendered' := h'.rendered col (by rw [hw]; exact hcol)
    rw [hw, hlen, hconfig] at hrendered'
    rw [h.rendered col hcol, hrendered']

/-- The same PRINTs on two buffers of one geometry and configuration make as many more pages alike. -/
theorem printsSucceed_agreesOnLast {s s' t t' : State} {texts : List (List Byte)} {n : Nat} (hs : s.Inv) (hs' : s'.Inv)
    (hsame : s.SameBuffer { s' with pixels := s.pixels }) (hagree : s.AgreesOnLast s' n)
    (h : PrintsSucceed texts s t) (h' : PrintsSucceed texts s' t') :
    t.Inv ∧ t'.Inv ∧ t.bufLen = s.bufLen ∧ t'.bufLen = s.bufLen ∧
      t.AgreesOnLast t' (texts.length * s.width.toNat + n) := by
  induction texts generalizing s s' n with
  | nil =>
    obtain rfl : t = s := h
    obtain rfl : t' = s' := h'
    refine ⟨hs, hs', rfl, hsame.bufLen.symm, ?_⟩
    simpa using hagree
  | cons text texts ih =>
    obtain ⟨u, hprinted, hinv, hrest⟩ := printsSucceed_cons hs h
    obtain ⟨u', hprinted', hinv', hrest'⟩ := printsSucceed_cons hs' h'
    have hsame' : u.SameBuffer { u' with pixels := u.pixels } := by
      rw [hprinted.frame, hprinted'.frame]
      exact ⟨hsame.constructed, hsame.width, hsame.height, hsame.pageCount, hsame.bufLen, rfl, hsame.config⟩
    have hw : u.width = s.width := by rw [hprinted.frame]
    have hlen : u.bufLen = s.bufLen := by rw [hprinted.frame]
    have hlater := ih hinv hinv' hsame' (hprinted.agreesOnLast hprinted' hsame hagree) hrest hrest'
    rw [hw, hlen, ← Nat.add_assoc] at hlater
    rwa [List.length_cons, Nat.succ_mul]

/-- No byte outside the buffer is listed (rule R51). -/
theorem State.Inv.read_outside {s : State} (hs : s.Inv) {a : Nat} (ha : s.bufLen.toNat ≤ a) :
    s.pixels.read a = Memory.unlisted := by
  refine Memory.read_of_not_listed fun c hc => ?_
  have hlt := hs.pixels.2 c hc
  omega

/-- Settles O43: as many PRINTs as pages make the whole buffer alike (`printsSucceed_agreesOnLast`), and canonical
buffers that read alike are equal. -/
theorem pageCountPrintsReplaceEverything : Obligations.PageCountPrintsReplaceEverything := by
  intro s s' t t' texts hs hs' hsame hpages h h'
  have hnone : s.AgreesOnLast s' 0 := fun a ha hlast => absurd ha (by omega)
  obtain ⟨hinv, hinv', hlen, hlen', hagree⟩ := printsSucceed_agreesOnLast hs hs' hsame hnone h h'
  have hwhole : s.bufLen.toNat ≤ texts.length * s.width.toNat :=
    (State.bufLen_eq hs).trans_le (Nat.mul_le_mul_right _ hpages)
  refine Memory.ext_of_wf hinv.pixels.1 hinv'.pixels.1 fun a => ?_
  by_cases ha : a < s.bufLen.toNat
  · exact hagree a (by rw [hlen]; exact ha) (by rw [hlen]; omega)
  · rw [hinv.read_outside (by rw [hlen]; omega), hinv'.read_outside (by rw [hlen']; omega)]

/-! ## A command depends on the buffer alone -/

/-- The buffer of `s` with the parser, the stream and the earlier responses of `u`; the responses of `s` come after
those. -/
def State.onStreamsOf (u s : State) : State :=
  { s with parser := u.parser, cmdIn := u.cmdIn, rspOut := u.rspOut ++ s.rspOut }

/-- The same, of the state a command leaves. -/
def resultOnStreamsOf (u : State) : Result → Result
  | .next t => .next (u.onStreamsOf t)
  | .fault f => .fault f
  | .refused r => .refused r

theorem eq_next_of_resultOnStreamsOf {u t : State} {r : Result} (h : resultOnStreamsOf u r = .next t) :
    ∃ v, r = .next v ∧ u.onStreamsOf v = t := by
  cases r with
  | next v =>
    injection h with h
    exact ⟨v, rfl, h⟩
  | fault f => cases h
  | refused f => cases h

theorem State.answered_onStreamsOf (u s : State) (r : Word) :
    (u.onStreamsOf s).answered r = u.onStreamsOf (s.answered r) := by
  simp [State.onStreamsOf, State.answered]

theorem State.complete_onStreamsOf (u s : State) (d : BitVec 16) :
    (u.onStreamsOf s).complete d = resultOnStreamsOf u (s.complete d) :=
  congrArg Host.Outcome.next (u.answered_onStreamsOf s _)

theorem State.raise_onStreamsOf (u s : State) (e : CommandError) :
    (u.onStreamsOf s).raise e = resultOnStreamsOf u (s.raise e) :=
  congrArg Host.Outcome.next (u.answered_onStreamsOf s _)

/-- Both branches of a check on the buffer. -/
theorem ite_onStreamsOf {c : Prop} [Decidable c] {u : State} {r r' q q' : Result} (hpos : r = resultOnStreamsOf u q)
    (hneg : r' = resultOnStreamsOf u q') : (if c then r else r') = resultOnStreamsOf u (if c then q else q') := by
  split
  · exact hpos
  · exact hneg

theorem State.whenConstructed_onStreamsOf (u s : State) {r q : Result} (h : r = resultOnStreamsOf u q) :
    (u.onStreamsOf s).whenConstructed r = resultOnStreamsOf u (s.whenConstructed q) :=
  ite_onStreamsOf h (u.raise_onStreamsOf s _)

theorem State.modifyByte_onStreamsOf (u s : State) (i : Nat) (f : Byte → Byte) :
    (u.onStreamsOf s).modifyByte i f = resultOnStreamsOf u (s.modifyByte i f) :=
  ite_onStreamsOf (u.complete_onStreamsOf { s with pixels := s.pixels.write i (f (s.pixels.read i)) } 0) rfl

theorem State.blitColumn_onStreamsOf (u s : State) (col : Nat) (v : Byte) :
    (u.onStreamsOf s).blitColumn col v = u.onStreamsOf (s.blitColumn col v) := by
  rw [State.blitColumn, State.blitColumn, apply_ite u.onStreamsOf]
  rfl

theorem State.blitColumns_onStreamsOf (u s : State) (i : Nat) (c : Byte) (n : Nat) :
    (u.onStreamsOf s).blitColumns i c n = u.onStreamsOf (s.blitColumns i c n) := by
  induction n with
  | zero => rfl
  | succ n ih =>
    rw [State.blitColumns_succ, State.blitColumns_succ, ih, State.blitColumn_onStreamsOf]
    rfl

theorem State.blit_onStreamsOf (u s : State) (i : Nat) (t : List Byte) :
    (u.onStreamsOf s).blit i t = u.onStreamsOf (s.blit i t) := by
  induction t generalizing s i with
  | nil => rfl
  | cons c t ih =>
    rw [State.blit, State.blit, ← ih, State.blitChar_eq, State.blitChar_eq, State.blitColumns_onStreamsOf]

theorem State.printLine_onStreamsOf (u s : State) (t : List Byte) :
    (u.onStreamsOf s).printLine t = u.onStreamsOf (s.printLine t) :=
  u.blit_onStreamsOf s.scroll.clearBottom 0 t

/-- Every command does on the streams of `u` what it does on its own: no check and no write looks at the parser, the
stream or the responses. -/
theorem exec_onStreamsOf (i : Instr) (u s : State) : exec i (u.onStreamsOf s) = resultOnStreamsOf u (exec i s) := by
  cases i with
  | construct w h => exact ite_onStreamsOf (u.raise_onStreamsOf s _) (u.complete_onStreamsOf (s.newSession w h) 0)
  | clear => exact u.whenConstructed_onStreamsOf s (u.complete_onStreamsOf s.clearPixels 0)
  | pset x y =>
    exact u.whenConstructed_onStreamsOf s
      (ite_onStreamsOf (u.modifyByte_onStreamsOf s _ _) (u.raise_onStreamsOf s _))
  | pclr x y =>
    exact u.whenConstructed_onStreamsOf s
      (ite_onStreamsOf (u.modifyByte_onStreamsOf s _ _) (u.raise_onStreamsOf s _))
  | print text =>
    refine u.whenConstructed_onStreamsOf s ?_
    refine ite_onStreamsOf (u.raise_onStreamsOf s _) ?_
    refine ite_onStreamsOf (u.raise_onStreamsOf s _) ?_
    refine ite_onStreamsOf (u.raise_onStreamsOf s _) ?_
    refine ite_onStreamsOf rfl ?_
    rw [State.printLine_onStreamsOf]
    exact u.complete_onStreamsOf _ 0
  | rdbyte k =>
    exact u.whenConstructed_onStreamsOf s (ite_onStreamsOf (u.raise_onStreamsOf s _) (u.complete_onStreamsOf s _))
  | rdlen => exact u.whenConstructed_onStreamsOf s (u.complete_onStreamsOf s _)

/-- A state that holds the buffer of `s` is that buffer on its own streams. -/
theorem State.SameBuffer.eq_onStreamsOf {s u : State} (h : s.SameBuffer u) :
    u = u.onStreamsOf { s with rspOut := [] } := by
  obtain ⟨hconstructed, hwidth, hheight, hpageCount, hbufLen, hpixels, hconfig⟩ := h
  simp [State.onStreamsOf, hconstructed, hwidth, hheight, hpageCount, hbufLen, hpixels, hconfig]

/-- Every command answers once, whatever the state. -/
theorem exec_rspOut {i : Instr} {s t : State} (h : exec i s = .next t) : ∃ r, t.rspOut = s.rspOut ++ [r] := by
  rcases exec_answersOnce h with ⟨e, rfl⟩ | ⟨-, -, d, hrsp⟩
  · exact ⟨_, rfl⟩
  · exact ⟨_, hrsp⟩

/-- Settles O44: both runs are the run on the buffer alone, each on its own streams (`exec_onStreamsOf`). -/
theorem commandsDependOnBufferAlone : Obligations.CommandsDependOnBufferAlone := by
  intro s s' t i hsame h
  have hrun : ∀ u, s.SameBuffer u → exec i u = resultOnStreamsOf u (exec i { s with rspOut := [] }) := fun u hu =>
    (congrArg (exec i) hu.eq_onStreamsOf).trans (exec_onStreamsOf i u _)
  obtain ⟨v, hv, rfl⟩ := eq_next_of_resultOnStreamsOf ((hrun s s.sameBuffer_refl).symm.trans h)
  obtain ⟨r, hr⟩ := exec_rspOut hv
  have hs' : exec i s' = .next (s'.onStreamsOf v) := by rw [hrun s' hsame, hv, resultOnStreamsOf]
  exact ⟨_, r, hs', ⟨rfl, rfl, rfl, rfl, rfl, rfl, rfl⟩, congrArg (s.rspOut ++ ·) hr, congrArg (s'.rspOut ++ ·) hr⟩

end Sys2Proof.Machine

/-! PROOFS. The statements about the reads of the buffer (42_buffer_export.md): what RDBYTE and RDLEN answer, and the
reading of a whole buffer through them. -/

namespace Sys2Proof.Machine

/-! ## What a read answers -/

/-- The response OK with a value of at most 16 bits as its data is the value's number (rule R96). -/
theorem responseWord_statusOk_setWidth {n : Nat} (hn : n ≤ 16) (v : BitVec n) :
    responseWord statusOk (v.setWidth 16) = BitVec.ofNat 32 v.toNat := by
  have hv : v.toNat < 2 ^ 16 := v.isLt.trans_le (Nat.pow_le_pow_right (by decide) hn)
  have hdata : (v.setWidth 16).toNat = v.toNat := BitVec.toNat_setWidth_of_le hn
  have hword : (BitVec.ofNat 32 v.toNat).toNat = v.toNat := Nat.mod_eq_of_lt (by omega)
  rw [← BitVec.toNat_inj, responseWord, toNat_append_eq, hdata, hword]
  exact Nat.zero_add _

theorem exec_rdbyte_of_lt {s : State} {i : BitVec 13} (hc : s.constructed = true) (hi : i.toNat < s.bufLen.toNat) :
    exec (.rdbyte i) s = .next (s.answered (BitVec.ofNat 32 (s.pixels.read i.toNat).toNat)) := by
  rw [← responseWord_statusOk_setWidth (by decide)]
  exact (s.whenConstructed_of_constructed hc _).trans (if_neg (Nat.not_le.2 hi))

theorem exec_rdbyte_of_le {s : State} {i : BitVec 13} (hc : s.constructed = true) (hi : s.bufLen.toNat ≤ i.toNat) :
    exec (.rdbyte i) s = .next (s.answered 0x20000000#32) :=
  (s.whenConstructed_of_constructed hc _).trans (if_pos hi)

theorem exec_rdlen_of_constructed {s : State} (hc : s.constructed = true) :
    exec .rdlen s = .next (s.answered (BitVec.ofNat 32 s.bufLen.toNat)) := by
  rw [← responseWord_statusOk_setWidth (by decide)]
  exact s.whenConstructed_of_constructed hc _

/-- A word of RDBYTE or RDLEN with a bit set between its opcode and its operand is in no row of the opcode table (rules
R83, R90, R91). -/
theorem legalWord_eq_false_of_reserved_read {w : Word}
    (h : (opField w = 0x6#4 ∧ w.extractLsb' 13 15 ≠ 0#15) ∨ (opField w = 0x7#4 ∧ w.extractLsb' 0 28 ≠ 0#28)) :
    legalWord w = false := by
  simp only [Ne, ← BitVec.toNat_inj, opField_toNat, field_toNat, BitVec.toNat_ofNat] at h
  rw [← Bool.not_eq_true, legalWord_iff]
  omega

/-- Settles O46: the answers of `exec_rdbyte_of_lt` and `exec_rdbyte_of_le`; no buffer is longer than 8160 bytes
(`State.bufLen_le`). -/
theorem rdbyteAnswersByte : Obligations.RdbyteAnswersByte :=
  fun s _ => ⟨exec_rdbyte_of_lt, exec_rdbyte_of_le,
    fun hs hc hi => exec_rdbyte_of_le hc ((State.bufLen_le hs).trans hi),
    fun hc => s.whenConstructed_of_not hc _,
    fun _ text hop hres => execute_of_not_legal (legalWord_eq_false_of_reserved_read (.inl ⟨hop, hres⟩)) text s⟩

/-- A buffer has at least one byte (rules R22 to R25). -/
theorem State.bufLen_pos {s : State} (hs : s.Inv) (hc : s.constructed = true) : 1 ≤ s.bufLen.toNat :=
  (hs.geometry.2 hc).1.trans (State.width_le_bufLen hs)

/-- Settles O47, by `exec_rdlen_of_constructed` and the bounds of the length. -/
theorem rdlenAnswersLength : Obligations.RdlenAnswersLength :=
  fun s => ⟨exec_rdlen_of_constructed, fun hs hc => ⟨State.bufLen_pos hs hc, State.bufLen_le hs⟩,
    fun hc => s.whenConstructed_of_not hc _,
    fun _ text hop hres => execute_of_not_legal (legalWord_eq_false_of_reserved_read (.inr ⟨hop, hres⟩)) text s⟩

/-! ## Reading a whole buffer -/

/-- With the parser idle and the one word of a command next on the stream, a step runs the command. -/
theorem step_header {s : State} {i : Instr} {rest : List Event} (hi : i.WellFormed) (hword : payload i = [])
    (hidle : s.parser = .idle) (hstream : s.cmdIn = .word (header i) :: rest) :
    step s = exec i { s with cmdIn := rest } :=
  stepRunsDecodedCommand s _ rest i hidle hstream (decode_of_encode_eq hi (by rw [encode, hword]))

theorem step_rdbyte {s : State} {k : BitVec 13} {rest : List Event} (hc : s.constructed = true)
    (hidle : s.parser = .idle) (hk : k.toNat < s.bufLen.toNat)
    (hstream : s.cmdIn = .word (header (.rdbyte k)) :: rest) :
    step s = .next (State.answered { s with cmdIn := rest } (BitVec.ofNat 32 (s.pixels.read k.toNat).toNat)) :=
  (step_header rfl rfl hidle hstream).trans (exec_rdbyte_of_lt (s := { s with cmdIn := rest }) hc hk)

theorem step_rdlen {s : State} {rest : List Event} (hc : s.constructed = true) (hidle : s.parser = .idle)
    (hstream : s.cmdIn = .word (header .rdlen) :: rest) :
    step s = .next (State.answered { s with cmdIn := rest } (BitVec.ofNat 32 s.bufLen.toNat)) :=
  (step_header rfl rfl hidle hstream).trans (exec_rdlen_of_constructed (s := { s with cmdIn := rest }) hc)

/-- RDBYTEs of indexes inside the buffer, one after another, answer the bytes at the indexes and change nothing else. -/
theorem run_rdbytes {rest : List Event} (ks : List (BitVec 13)) {s : State} (hc : s.constructed = true)
    (hidle : s.parser = .idle) (hin : ∀ k ∈ ks, k.toNat < s.bufLen.toNat)
    (hstream : s.cmdIn = wordEvents (ks.map fun k => header (.rdbyte k)) ++ rest) :
    run ks.length s = .next { s with
      cmdIn := rest
      rspOut := s.rspOut ++ ks.map fun k => BitVec.ofNat 32 (s.pixels.read k.toNat).toNat } := by
  induction ks generalizing s with
  | nil =>
    have hrest : s.cmdIn = rest := hstream
    rw [← hrest, List.map_nil, List.append_nil]
    rfl
  | cons k ks ih =>
    obtain ⟨hk, hks⟩ := List.forall_mem_cons.1 hin
    rw [List.length_cons, run_succ (step_rdbyte hc hidle hk hstream)]
    refine Eq.trans (ih hc hidle hks rfl) ?_
    rw [State.answered_rspOut, List.append_assoc]
    rfl

/-- RDBYTE of every index in order answers `State.exportView` (rules R53, R192). -/
theorem run_rdbyte_every_index {s : State} {n : Nat} {rest : List Event} (hn : s.bufLen.toNat = n)
    (hc : s.constructed = true) (hidle : s.parser = .idle)
    (hstream : s.cmdIn = wordEvents ((List.range n).map fun i => header (.rdbyte (BitVec.ofNat 13 i))) ++ rest) :
    run n s = .next { s with
      cmdIn := rest
      rspOut := s.rspOut ++ s.exportView.map fun b => BitVec.ofNat 32 b.toNat } := by
  subst hn
  have hindex : ∀ i ∈ List.range s.bufLen.toNat, (BitVec.ofNat 13 i).toNat = i := fun i hi =>
    Nat.mod_eq_of_lt ((List.mem_range.1 hi).trans s.bufLen.isLt)
  have hin : ∀ k ∈ (List.range s.bufLen.toNat).map (BitVec.ofNat 13), k.toNat < s.bufLen.toNat :=
    List.forall_mem_map.2 fun i hi => (hindex i hi).trans_lt (List.mem_range.1 hi)
  have hrun := run_rdbytes _ hc hidle hin (by rw [List.map_map]; exact hstream)
  rw [List.length_map, List.length_range, List.map_map] at hrun
  rw [hrun, State.exportView, List.map_map]
  congr 3
  refine List.map_congr_left fun i hi => ?_
  simp only [Function.comp_apply, hindex i hi]

/-- Settles O49: one step answers the length (`step_rdlen`), and the RDBYTEs after it answer the bytes of
the buffer in order (`run_rdbyte_every_index`). -/
theorem exportReadsWholeBuffer : Obligations.ExportReadsWholeBuffer := by
  intro s rest _ hc hidle hstream
  rw [Nat.add_comm, run_succ (step_rdlen hc hidle hstream)]
  refine Eq.trans (run_rdbyte_every_index rfl hc hidle rfl) ?_
  rw [State.answered_rspOut, List.append_assoc]
  rfl

end Sys2Proof.Machine

/-! PROOFS. The statements about errors (60_exceptions.md): what an error leaves of a command, and which commands raise
which error. -/

namespace Sys2Proof.Machine

/-! ## What an error leaves -/

/-- Settles O50: every arm but CONSTRUCT's begins with the check for a session. -/
theorem notConstructedBeforeConstruct : Obligations.NotConstructedBeforeConstruct := by
  intro s i hc hnew
  cases i with
  | construct w h => exact absurd rfl (hnew w h)
  | clear => exact s.whenConstructed_of_not hc _
  | pset x y => exact s.whenConstructed_of_not hc _
  | pclr x y => exact s.whenConstructed_of_not hc _
  | print text => exact s.whenConstructed_of_not hc _
  | rdbyte k => exact s.whenConstructed_of_not hc _
  | rdlen => exact s.whenConstructed_of_not hc _

/-- Settles O51: a command that does not raise an error answers with the status of OK (`exec_answersOnce`). -/
theorem errorsLeaveNoTrace : Obligations.ErrorsLeaveNoTrace := by
  intro s t i h
  rcases exec_answersOnce h with ⟨e, rfl⟩ | ⟨-, -, d, hrsp⟩
  · exact ⟨_, rfl, fun _ => rfl⟩
  · exact ⟨_, hrsp, fun hne => absurd (statusOf_responseWord _ _) hne⟩

/-- Settles O45: each of the three policies switches off one check of PRINT, and it has no other with a buffer. -/
theorem truncationAndClippingAreNotErrors : Obligations.TruncationAndClippingAreNotErrors := by
  intro s text hs hc hgeometry hglyph hnarrow
  have hprint := exec_print_of_constructed hs hc text
  rw [if_neg (by simp [hgeometry]), if_neg (by simp [hglyph]), if_neg (by simp [hnarrow])] at hprint
  exact ⟨_, _, hprint, by rw [State.Responds, State.answered_rspOut, State.printLine_frame], rfl⟩

/-! ## The error of a command -/

/-- `NotConstructed` without a session, otherwise the error of the checks after that one (rules R204, R208). -/
def State.sessionError (s : State) (later : Option CommandError) : Option CommandError :=
  if s.constructed then later else some .notConstructed

/-- The first of a command's checks that fails, in the order of rule R208, where `legal(w)` has passed. -/
def State.errorOf (s : State) : Instr → Option CommandError
  | .construct w h => if w = 0#8 ∨ h = 0#8 then some .invalidDimensions else none
  | .clear => s.sessionError none
  | .pset x y => s.sessionError (if s.inRange x y then none else some .outOfRange)
  | .pclr x y => s.sessionError (if s.inRange x y then none else some .outOfRange)
  | .print text => s.sessionError <|
      if s.config.printGeometry = .strict ∧ s.irregularGeometry = true then some .geometryUnsupported
      else if s.config.undefGlyph = .fault ∧ s.undefinedIn (text.take (renderCount text)) = true then
        some .undefinedGlyph
      else if s.config.narrowLine = .fault ∧ s.width.toNat < 5 * renderCount text then some .outOfRange
      else none
  | .rdbyte k => s.sessionError (if s.bufLen.toNat ≤ k.toNat then some .outOfRange else none)
  | .rdlen => s.sessionError none

/-- `t` is what `s` becomes with the error raised, or has one more response than `s`, an OK, where there is none. -/
def State.AnswersWith (s t : State) : Option CommandError → Prop
  | some e => t = s.answered (responseWord e.code 0)
  | none => ∃ d, t.rspOut = s.rspOut ++ [responseWord statusOk d]

/-- The next state of the result, if there is one, answers with the error or OK. -/
def State.ResultAnswersWith (s : State) (r : Result) (o : Option CommandError) : Prop :=
  ∀ t, r = .next t → s.AnswersWith t o

theorem State.resultAnswersWith_raise (s : State) (e : CommandError) : s.ResultAnswersWith (s.raise e) (some e) := by
  intro t h
  injection h with h
  exact h.symm

/-- A command that completes has the responses of `s` before its own, whatever it did to the buffer. -/
theorem State.resultAnswersWith_complete {s u : State} (hu : u.rspOut = s.rspOut) (d : BitVec 16) :
    s.ResultAnswersWith (u.complete d) none := by
  intro t h
  injection h with h
  subst h
  exact ⟨d, congrArg (· ++ _) hu⟩

theorem State.resultAnswersWith_fault (s : State) (f : Fault) (o : Option CommandError) :
    s.ResultAnswersWith (.fault f) o := nofun

/-- A check: each branch has its error. -/
theorem State.resultAnswersWith_ite {c : Prop} [Decidable c] {s : State} {r r' : Result} {o o' : Option CommandError}
    (hpos : s.ResultAnswersWith r o) (hneg : s.ResultAnswersWith r' o') :
    s.ResultAnswersWith (if c then r else r') (if c then o else o') := by
  split
  · exact hpos
  · exact hneg

theorem State.resultAnswersWith_whenConstructed {s : State} {r : Result} {o : Option CommandError}
    (h : s.ResultAnswersWith r o) : s.ResultAnswersWith (s.whenConstructed r) (s.sessionError o) :=
  State.resultAnswersWith_ite h (s.resultAnswersWith_raise _)

theorem State.resultAnswersWith_modifyByte (s : State) (i : Nat) (f : Byte → Byte) :
    s.ResultAnswersWith (s.modifyByte i f) none := by
  unfold State.modifyByte
  split
  · exact State.resultAnswersWith_complete rfl 0
  · exact s.resultAnswersWith_fault _ _

/-- The effect of a PRINT, or the fault of a page that is not in the buffer, after the checks. -/
theorem State.resultAnswersWith_printLine (s : State) (t : List Byte) :
    s.ResultAnswersWith
      (if s.bufLen.toNat < s.width.toNat then .fault .pixelAddressOutsideBuffer else (s.printLine t).complete 0)
      none := by
  split
  · exact s.resultAnswersWith_fault _ _
  · exact State.resultAnswersWith_complete (by rw [State.printLine_frame]) 0

/-- Every command raises the error of its first check that fails, and answers OK where none does. -/
theorem exec_answersWith (i : Instr) (s : State) : s.ResultAnswersWith (exec i s) (s.errorOf i) := by
  cases i with
  | construct w h =>
    exact State.resultAnswersWith_ite (s.resultAnswersWith_raise _)
      (State.resultAnswersWith_complete (u := s.newSession w h) rfl 0)
  | clear =>
    exact State.resultAnswersWith_whenConstructed (State.resultAnswersWith_complete s.clearPixels_rspOut 0)
  | pset x y =>
    exact State.resultAnswersWith_whenConstructed
      (State.resultAnswersWith_ite (s.resultAnswersWith_modifyByte _ _) (s.resultAnswersWith_raise _))
  | pclr x y =>
    exact State.resultAnswersWith_whenConstructed
      (State.resultAnswersWith_ite (s.resultAnswersWith_modifyByte _ _) (s.resultAnswersWith_raise _))
  | print text =>
    refine State.resultAnswersWith_whenConstructed ?_
    refine State.resultAnswersWith_ite (s.resultAnswersWith_raise _) ?_
    refine State.resultAnswersWith_ite (s.resultAnswersWith_raise _) ?_
    exact State.resultAnswersWith_ite (s.resultAnswersWith_raise _) (s.resultAnswersWith_printLine _)
  | rdbyte k =>
    exact State.resultAnswersWith_whenConstructed
      (State.resultAnswersWith_ite (s.resultAnswersWith_raise _) (State.resultAnswersWith_complete rfl _))
  | rdlen => exact State.resultAnswersWith_whenConstructed (State.resultAnswersWith_complete rfl _)

/-! ## Which error a response names -/

/-- A status code of rule R97 tells its error: the codes number the errors from 1 on. -/
theorem CommandError.ofNat_code (e : CommandError) : CommandError.ofNat (e.code.toNat - 1) = e := by
  cases e <;> rfl

theorem CommandError.code_ne_statusOk (e : CommandError) : e.code ≠ statusOk := by
  cases e <;> decide

theorem responseWord_code_inj {e e' : CommandError} :
    responseWord e.code 0 = responseWord e'.code 0 ↔ e = e' := by
  refine ⟨fun h => ?_, fun h => by rw [h]⟩
  have hcode := congrArg statusOf h
  rw [statusOf_responseWord, statusOf_responseWord] at hcode
  rw [← e.ofNat_code, ← e'.ofNat_code, hcode]

theorem responseWord_statusOk_ne_error (d : BitVec 16) (e : CommandError) :
    responseWord statusOk d ≠ responseWord e.code 0 := by
  intro h
  have hcode := congrArg statusOf h
  rw [statusOf_responseWord, statusOf_responseWord] at hcode
  exact e.code_ne_statusOk hcode.symm

/-- The response tells the error: the command answers an error's word exactly when that error is its own. -/
theorem exec_rspOut_error_iff {i : Instr} {s t : State} (h : exec i s = .next t) (e : CommandError) :
    t.rspOut = s.rspOut ++ [responseWord e.code 0] ↔ s.errorOf i = some e := by
  have hanswer := exec_answersWith i s t h
  cases ho : s.errorOf i with
  | none =>
    rw [ho] at hanswer
    obtain ⟨d, hd⟩ := hanswer
    rw [hd, List.append_cancel_left_eq, List.singleton_inj]
    exact iff_of_false (responseWord_statusOk_ne_error d e) nofun
  | some e' =>
    rw [ho] at hanswer
    have ht : t.rspOut = s.rspOut ++ [responseWord e'.code 0] := congrArg State.rspOut hanswer
    rw [ht, List.append_cancel_left_eq, List.singleton_inj, Option.some_inj, responseWord_code_inj]

/-! ## The causes of each error -/

/-- An error other than `NotConstructed` is raised with a session alone. -/
theorem State.sessionError_eq_some_iff {s : State} {o : Option CommandError} {e : CommandError}
    (he : e ≠ .notConstructed) : s.sessionError o = some e ↔ s.constructed = true ∧ o = some e := by
  cases hc : s.constructed with
  | false => simp [State.sessionError, hc, he.symm]
  | true => simp [State.sessionError, hc]

/-- A check that raises `e'`, and the checks after it. -/
theorem check_eq_some_iff {c : Prop} [Decidable c] {o : Option CommandError} {e e' : CommandError} :
    (if c then some e' else o) = some e ↔ (c ∧ e' = e) ∨ (¬ c ∧ o = some e) := by
  by_cases hc : c <;> simp [hc]

/-- PRINT with a session: its three checks, each raising its error where those before it pass (rule R208). -/
theorem State.errorOf_print_iff (s : State) (text : List Byte) {e : CommandError} (he : e ≠ .notConstructed) :
    s.errorOf (.print text) = some e ↔ s.constructed = true ∧
      ((s.config.printGeometry = .strict ∧ s.irregularGeometry = true) ∧ .geometryUnsupported = e ∨
       ¬ (s.config.printGeometry = .strict ∧ s.irregularGeometry = true) ∧
        ((s.config.undefGlyph = .fault ∧ s.undefinedIn (text.take (renderCount text)) = true) ∧ .undefinedGlyph = e ∨
         ¬ (s.config.undefGlyph = .fault ∧ s.undefinedIn (text.take (renderCount text)) = true) ∧
          (s.config.narrowLine = .fault ∧ s.width.toNat < 5 * renderCount text) ∧ .outOfRange = e)) := by
  rw [State.errorOf, State.sessionError_eq_some_iff he, check_eq_some_iff, check_eq_some_iff,
    Option.ite_none_right_eq_some, Option.some_inj]

theorem State.inRange_eq_false_iff (s : State) (x y : Byte) :
    s.inRange x y = false ↔ s.width.toNat ≤ x.toNat ∨ s.height.toNat ≤ y.toNat := by
  rw [← Bool.not_eq_true, s.inRange_iff]
  omega

theorem State.undefinedIn_iff (s : State) (rendered : List Byte) :
    s.undefinedIn rendered = true ↔ ∃ c, c ∈ rendered ∧ isDefined s.config c = false := by
  simp [State.undefinedIn]

/-- Settles O52: CONSTRUCT's one check raises the error, and no check of another command does. -/
theorem invalidDimensionsCause : Obligations.InvalidDimensionsCause := by
  intro s t i h
  refine (exec_rspOut_error_iff h .invalidDimensions).trans ?_
  cases i with
  | construct w h =>
    rw [State.errorOf, Option.ite_none_right_eq_some]
    simp
  | print text => simp [State.errorOf_print_iff]
  | _ => simp [State.errorOf, State.sessionError_eq_some_iff]

/-- Settles O54: PRINT's first check raises the one error and its second the other; no check of another command does. -/
theorem printOnlyErrors : Obligations.PrintOnlyErrors := by
  intro s t i h
  simp only [← s.irregularGeometry_iff, ← s.undefinedIn_iff]
  refine ⟨(exec_rspOut_error_iff h .geometryUnsupported).trans ?_, (exec_rspOut_error_iff h .undefinedGlyph).trans ?_⟩
  · cases i with
    | print text => simp [State.errorOf_print_iff]
    | _ => simp [State.errorOf, State.sessionError_eq_some_iff]
  · cases i with
    | print text => simp [State.errorOf_print_iff, and_comm, and_assoc]
    | _ => simp [State.errorOf, State.sessionError_eq_some_iff]

/-- Settles O53: with a session, the error is that of the range checks of PSET, PCLR and RDBYTE, and of PRINT's last
check where its first two pass; CONSTRUCT, CLEAR and RDLEN have no such check. -/
theorem outOfRangeCause : Obligations.OutOfRangeCause := by
  intro s t i _ h
  simp only [← s.irregularGeometry_iff, ← s.undefinedIn_iff, ← s.inRange_eq_false_iff]
  refine (exec_rspOut_error_iff h .outOfRange).trans ?_
  cases i with
  | construct w h => simp [State.errorOf]
  | pset x y => simp [State.errorOf, State.sessionError_eq_some_iff]
  | pclr x y => simp [State.errorOf, State.sessionError_eq_some_iff]
  | rdbyte k => simp [State.errorOf, State.sessionError_eq_some_iff]
  | print text => simp [State.errorOf_print_iff, and_comm, and_left_comm, and_assoc]
  | clear => simp [State.errorOf, State.sessionError_eq_some_iff]
  | rdlen => simp [State.errorOf, State.sessionError_eq_some_iff]

end Sys2Proof.Machine

/-! PROOFS. The statements about resets and the end of the streams (70_reset_and_hazards.md): a reset inside a PRINT, the
run of a finite stream, and the wait when nothing is left. -/

namespace Sys2Proof.Machine

/-! ## A reset inside a PRINT -/

/-- Settles O15: the header and the payload words taken only moved the parser (`run_header`), and the reset sets it back
(`step_reset`). -/
theorem resetDiscardsPartialPrint : Obligations.ResetDiscardsPartialPrint := by
  intro s hdr ps rest hidle hpart hstream
  have hwords := run_header hidle hpart hstream
  rw [show ps.length + 2 = (1 + ps.length) + 1 by omega, run_add _ _ hwords, run_one]
  exact step_reset rfl

/-! ## The streams -/

/-- A command takes nothing from the stream itself, and takes back no response (rule R57). -/
theorem State.AnswersOnce.streams {s t : State} (h : s.AnswersOnce t) : t.cmdIn = s.cmdIn ∧ s.rspOut <+: t.rspOut := by
  rcases h with ⟨e, rfl⟩ | ⟨-, hcmdIn, d, hrsp⟩
  · exact ⟨rfl, List.prefix_append _ _⟩
  · exact ⟨hcmdIn, hrsp ▸ List.prefix_append _ _⟩

/-- Every step takes exactly the next event, and takes back no response (rules R57, R232). -/
theorem step_streams {s t : State} (h : step s = .next t) : t.cmdIn = s.cmdIn.tail ∧ s.rspOut <+: t.rspOut := by
  rcases step_cases h with ⟨rest, hc, rfl⟩ | ⟨w, rest, hc, hw⟩ <;> rw [hc, List.tail_cons]
  · exact ⟨rfl, List.prefix_rfl⟩
  · rcases hw with ⟨-, -, -, rfl⟩ | ⟨hdr, r, text, -, -, rfl⟩ | ⟨-, hex⟩ | ⟨hdr, text, -, hex⟩
    · exact ⟨rfl, List.prefix_rfl⟩
    · exact ⟨rfl, List.prefix_rfl⟩
    · exact (execute_answersOnce hex).streams
    · exact (execute_answersOnce hex).streams

/-- Settles O22, by induction on the number of steps: each is possible (`everyEventIsTaken`), keeps the invariant
(`everyStepKeepsInvariant`) and takes one event (`step_streams`). -/
theorem streamIsConsumed : Obligations.StreamIsConsumed := by
  intro n
  induction n with
  | zero => exact fun s hs _ => ⟨s, rfl, hs, rfl, List.prefix_rfl⟩
  | succ n ih =>
    intro s hs hn
    have hne : s.cmdIn ≠ [] := List.ne_nil_of_length_pos (by omega)
    obtain ⟨u, hstep⟩ := everyEventIsTaken s hs hne
    obtain ⟨hcmdIn, hrsp⟩ := step_streams hstep
    have hlen : n ≤ u.cmdIn.length := by
      rw [hcmdIn, List.length_tail]
      omega
    obtain ⟨t, hrun, ht, htcmdIn, htrsp⟩ := ih u (everyStepKeepsInvariant s u hs hstep) hlen
    refine ⟨t, (run_succ hstep).trans hrun, ht, ?_, hrsp.trans htrsp⟩
    rw [htcmdIn, hcmdIn, List.drop_tail]

/-! ## Nothing left on the streams -/

theorem step_of_cmdIn_nil {s : State} (h : s.cmdIn = []) : step s = .fault (waitingFault s) := by
  rw [step, h]

theorem waitingFault_idle {s : State} (h : s.parser = .idle) : waitingFault s = .streamEnded := by
  rw [waitingFault, h]

theorem waitingFault_of_not_idle {s : State} (h : s.parser ≠ .idle) : waitingFault s = .waitingForPayload := by
  rw [waitingFault]
  split
  · contradiction
  · rfl

/-- Settles O16: with nothing left, the run has ended exactly where the parser is idle (rule R240). -/
theorem emptyStreamHasNoStep : Obligations.EmptyStreamHasNoStep := by
  intro s hempty
  rw [step_of_cmdIn_nil hempty]
  refine ⟨fun ⟨_, hidle⟩ => ?_, fun hwaits => ?_⟩
  · rw [waitingFault_idle hidle]
  · rw [waitingFault_of_not_idle fun hidle => hwaits ⟨hempty, hidle⟩]

end Sys2Proof.Machine
